-- ==== Sys2Proof/Word.lean ====
section
/-! DEFINITION. The byte and the pixel: the two data types every rule of the spec uses (R9). -/

namespace Sys2Proof

/-- `u8` of rule R9: one byte of the stream, one channel of a pixel. -/
abbrev Byte := BitVec 8

/-- `Pixel` of rule R9: four unsigned 8-bit channels, written (r, g, b, a). -/
structure Pixel where
  r : Byte
  g : Byte
  b : Byte
  a : Byte
deriving DecidableEq, Repr

end Sys2Proof
end

