-- ==== Sys2Proof/Config.lean ====
section
/-! DEFINITION. What the spec fixes for every core (R5), the reset pixels, the capacity a fresh State holds, and the free
values of the model (opaque: no body, so no proof can learn a value). -/

namespace Sys2Proof

/-- Content of every cache slot after reset, rule R20: "initialized to {0,0,0,255} in every slot". -/
def Config.cacheInit : Pixel := ⟨0, 0, 0, 255⟩

/-- Content of `last` after reset, rule R23. The value is the spec's own decision D3, not the source's (log entry 2). -/
def Config.lastInit : Pixel := ⟨0, 0, 0, 255⟩

/-- The capacity MAX_PIXELS a fresh State holds. DESIGN CHOICE (log entry 4): rule R6 leaves it OPEN; 2^24 is the value
of the test vectors (95_test_vectors.md). `State.hostReset` sets any other. -/
def Config.resetMaxPixels : Nat := 2 ^ 24

/-- The magic tag of rule R91, the ASCII bytes "qoif" as one big-endian word. -/
def Config.magic : BitVec 32 := 0x716F6966

/-- The end marker of rule R108: seven zero bytes followed by one 0x01 byte. -/
def Config.endMarker : List Byte := [0, 0, 0, 0, 0, 0, 0, 1]

/-- FREE VALUE (rules R32, R38; U6; log entry 6): what a host read of register number `reg` outside Done returns,
"any value". `draw` numbers the read, so that two reads need not agree. -/
opaque Config.freeRegister (reg draw : Nat) : BitVec 64

/-- FREE VALUE (rule R226; U5; log entry 6): what a host read of output cell `k` in Failed returns, "any value". -/
opaque Config.freePixel (k draw : Nat) : BitVec 32

end Sys2Proof
end

