-- ==== Sys2Proof/Syntax.lean ====
section
/-! DEFINITION. The instructions: one constructor per row of spec/opcode_table.json. The operands are those of rule R141,
after the bias is removed. -/

namespace Sys2Proof

/-- The Header value the parser produces from 14 bytes (rules R92, R121), before any validity check. `magic` is the four
literal bytes as one big-endian word, so that a header with a wrong magic is a value too (the check is rule R122). -/
structure Header where
  magic : BitVec 32
  width : BitVec 32
  height : BitVec 32
  channels : Byte
  colorspace : Byte
deriving DecidableEq, Repr

/-- The six opcodes (rule R141) and the two pseudo-instructions HEADER and END of the opcode table (rule R110). -/
inductive Instr where
  /-- RGB (R94, R160). -/
  | rgb (r g b : Byte)
  /-- RGBA (R95, R161). -/
  | rgba (r g b a : Byte)
  /-- INDEX (R96, R170): the slot, 0..63. -/
  | index (idx : Fin 64)
  /-- DIFF (R97, R180): the three deltas, each -2..1. -/
  | diff (dr dg db : Int)
  /-- LUMA (R98, R181): the green delta -32..31, and red minus green and blue minus green, each -8..7. -/
  | luma (dg drg dbg : Int)
  /-- RUN (R99, R190): the repeat count, 1..62. -/
  | run (count : Nat)
  /-- HEADER (R92, R120): the 14 bytes the header step consumes. -/
  | header (h : Header)
  /-- END (R108, R202): the end marker where the termination test matches it. -/
  | endMarker
deriving DecidableEq, Repr

end Sys2Proof
end

