-- ==== Sys2Proof/WellFormed.lean ====
section
/-! DEFINITION. Which instructions the stream format can express: the operand ranges of rules R100 and R109, and the
validity check of the header (R122). -/

namespace Sys2Proof

/-- `isValid()` of rule R122: "magic bytes equal the literal 4-byte tag; channels ∈ {3,4}; colorspace ∈ {0,1}". -/
def Header.isValid (h : Header) : Bool :=
  h.magic == Config.magic && (h.channels == 3 || h.channels == 4) && (h.colorspace == 0 || h.colorspace == 1)

/-- The closed operand range `lo..hi` of a row of rule R100. -/
def inRange (lo hi d : Int) : Bool := decide (lo ≤ d) && decide (d ≤ hi)

/-- The operand ranges of rule R109 ("An operand outside its range has no encoding") and rule R103 for the header. -/
def Instr.wf : Instr → Bool
  | .rgb _ _ _ => true
  | .rgba _ _ _ _ => true
  | .index _ => true
  | .diff dr dg db => inRange (-2) 1 dr && inRange (-2) 1 dg && inRange (-2) 1 db
  | .luma dg drg dbg => inRange (-32) 31 dg && inRange (-8) 7 drg && inRange (-8) 7 dbg
  | .run count => decide (1 ≤ count) && decide (count ≤ 62)
  | .header h => h.isValid
  | .endMarker => true

/-- The six opcodes of rule R141, as against the two pseudo-instructions of rule R110. -/
def Instr.isOpcode : Instr → Bool
  | .rgb _ _ _ => true
  | .rgba _ _ _ _ => true
  | .index _ => true
  | .diff _ _ _ => true
  | .luma _ _ _ => true
  | .run _ => true
  | .header _ => false
  | .endMarker => false

end Sys2Proof
end

