-- ==== Sys2Proof/Decode.lean ====
section
/-! DEFINITION. The decoder, total on any bytes and refusing by name, and after it the encoder, both from the formats of
30_encoding.md; and `decodeTableWord`, the decoder on the opcode table's numbering of bits. -/

namespace Sys2Proof

/-- `b[hi:lo]` of rule R8: the unsigned integer formed by bits `hi` down to `lo` of a byte, bit 0 the least significant. -/
def bits (b : Byte) (hi lo : Nat) : Nat := b.toNat / 2 ^ lo % 2 ^ (hi + 1 - lo)

/-- `be32` of rule R9 as a 32-bit word: the first stream byte is the most significant (R69). -/
def be32 (b0 b1 b2 b3 : Byte) : BitVec 32 := b0 ++ b1 ++ b2 ++ b3

/-- The four bytes of a word in stream order, most significant first (R69): what `be32` puts together. -/
def be32Bytes (w : BitVec 32) : List Byte :=
  [w.extractLsb' 24 8, w.extractLsb' 16 8, w.extractLsb' 8 8, w.extractLsb' 0 8]

/-- Why some bytes are no instruction. The first four are the short reads of rule R222; the last says that eight bytes
are not the end marker (R202), which is no failure: the loop then dispatches an opcode (R201). -/
inductive DecodeError where
  | truncHeader
  | truncOpcode
  | truncOperand
  | truncEndmark
  | notEndMarker
deriving DecidableEq, Repr

/-- Number of operand bytes a control byte announces (rule R101), by the precedence of rule R93. -/
def operandCount (c : Byte) : Nat :=
  if c = 0xFE then 3
  else if c = 0xFF then 4
  else if bits c 7 6 = 2 then 1
  else 0

/-- The parse of rule R121: 14 bytes give a Header value with no check made; fewer are refused. -/
def parseHeader : List Byte → Except DecodeError (Instr × List Byte)
  | m0 :: m1 :: m2 :: m3 :: w0 :: w1 :: w2 :: w3 :: h0 :: h1 :: h2 :: h3 :: ch :: cs :: rest =>
    .ok (.header ⟨be32 m0 m1 m2 m3, be32 w0 w1 w2 w3, be32 h0 h1 h2 h3, ch, cs⟩, rest)
  | _ => .error .truncHeader

/-- RGB's operands (R94): three raw bytes. -/
def decodeRgb : List Byte → Except DecodeError (Instr × List Byte)
  | r :: g :: b :: rest => .ok (.rgb r g b, rest)
  | _ => .error .truncOperand

/-- RGBA's operands (R95): four raw bytes. -/
def decodeRgba : List Byte → Except DecodeError (Instr × List Byte)
  | r :: g :: b :: a :: rest => .ok (.rgba r g b a, rest)
  | _ => .error .truncOperand

/-- INDEX (R96, R100): `idx = c[5:0]`. -/
def decodeIndex (c : Byte) : Instr := .index (Fin.ofNat 64 (bits c 5 0))

/-- DIFF (R97, R100): `dr = c[5:4] - 2`, `dg = c[3:2] - 2`, `db = c[1:0] - 2`. -/
def decodeDiff (c : Byte) : Instr :=
  .diff ((bits c 5 4 : Int) - 2) ((bits c 3 2 : Int) - 2) ((bits c 1 0 : Int) - 2)

/-- LUMA (R98, R100): `dg = c[5:0] - 32`, `drg = d[7:4] - 8`, `dbg = d[3:0] - 8`. Which nibble is red is the spec's
decision D4 (log entry 8). -/
def decodeLuma (c : Byte) : List Byte → Except DecodeError (Instr × List Byte)
  | d :: rest => .ok (.luma ((bits c 5 0 : Int) - 32) ((bits d 7 4 : Int) - 8) ((bits d 3 0 : Int) - 8), rest)
  | [] => .error .truncOperand

/-- RUN (R99, R100): `count = c[5:0] + 1`. -/
def decodeRun (c : Byte) : Instr := .run (bits c 5 0 + 1)

/-- Classification of an opcode by its control byte in the order of rule R140 (R93): 0xFE, 0xFF, then the top two bits.
Total on control bytes (R102): the only refusals are those for want of bytes. -/
def decodeOpcode : List Byte → Except DecodeError (Instr × List Byte)
  | [] => .error .truncOpcode
  | c :: rest =>
    if c = 0xFE then decodeRgb rest
    else if c = 0xFF then decodeRgba rest
    else if bits c 7 6 = 0 then .ok (decodeIndex c, rest)
    else if bits c 7 6 = 1 then .ok (decodeDiff c, rest)
    else if bits c 7 6 = 2 then decodeLuma c rest
    else .ok (decodeRun c, rest)

/-- The comparison of rule R202: the next eight bytes against the marker of rule R108, "exact, byte for byte". -/
def matchEndMarker (bs : List Byte) : Except DecodeError (Instr × List Byte) :=
  if bs.length < 8 then .error .truncEndmark
  else if bs.take 8 = Config.endMarker then .ok (.endMarker, bs.drop 8)
  else .error .notEndMarker

/-- What the core expects at `pc`: the header, an opcode, or an opcode or the marker (`CURSOR = TOTAL`). The bytes alone
do not tell (rule R104: the marker's bytes are INDEX opcodes while `CURSOR < TOTAL`). -/
inductive StreamPos where
  | header
  | opcode
  | markerDue
deriving DecidableEq, Repr

/-- The whole decoder: the instruction that bytes stand for at a place of the stream (R120, R201, R202). -/
def decodeAt : StreamPos → List Byte → Except DecodeError (Instr × List Byte)
  | .header, bs => parseHeader bs
  | .opcode, bs => decodeOpcode bs
  | .markerDue, bs =>
    match matchEndMarker bs with
    | .error .notEndMarker => decodeOpcode bs
    | r => r

/-- Where in the stream an instruction can stand. -/
def Instr.position : Instr → StreamPos
  | .rgb _ _ _ => .opcode
  | .rgba _ _ _ _ => .opcode
  | .index _ => .opcode
  | .diff _ _ _ => .opcode
  | .luma _ _ _ => .opcode
  | .run _ => .opcode
  | .header _ => .header
  | .endMarker => .markerDue

/-- Length of an instruction in bytes (rule R101; 14 and 8 for the pseudo rows, R92 and R108). -/
def Instr.length : Instr → Nat
  | .rgb _ _ _ => 4
  | .rgba _ _ _ _ => 5
  | .index _ => 1
  | .diff _ _ _ => 1
  | .luma _ _ _ => 2
  | .run _ => 1
  | .header _ => 14
  | .endMarker => 8

/-- The encoder: the "encoding" column of rule R109 and the expansions of rule R110. -/
def encode : Instr → List Byte
  | .rgb r g b => [0xFE, r, g, b]
  | .rgba r g b a => [0xFF, r, g, b, a]
  | .index idx => [BitVec.ofNat 8 idx.val]
  | .diff dr dg db => [BitVec.ofInt 8 (0x40 + (dr + 2) * 16 + (dg + 2) * 4 + (db + 2))]
  | .luma dg drg dbg => [BitVec.ofInt 8 (0x80 + (dg + 32)), BitVec.ofInt 8 ((drg + 8) * 16 + (dbg + 8))]
  | .run count => [BitVec.ofNat 8 (0xC0 + (count - 1))]
  | .header h =>
    be32Bytes h.magic ++ be32Bytes h.width ++ be32Bytes h.height ++ [h.channels, h.colorspace]
  | .endMarker => Config.endMarker

/-- `n` bytes of a number, the least significant first. -/
def lowBytes : Nat → Nat → List Byte
  | 0, _ => []
  | n + 1, w => BitVec.ofNat 8 (w % 256) :: lowBytes n (w / 256)

/-- The longest instruction, HEADER (R92). -/
def longestInstr : Nat := 14

/-- The bytes, first stream byte first, of an instruction that the opcode table gives as the number `w` of `nbits` bits.
An opcode's first byte is bits 7..0, its second bits 15..8, and so on. For the two pseudo rows the table writes its
`match` as ONE number with the first stream byte the most significant (HEADER 0x716F6966..., END 0x00...01), so a word of
112 or 64 bits that holds the row's fixed bytes only in that order is read in that order (log entry 10). -/
def tableBytes (nbits w : Nat) : List Byte :=
  let n := nbits / 8
  let low := lowBytes n w
  if nbits = 112 then
    if low.take 4 ≠ be32Bytes Config.magic ∧ low.reverse.take 4 = be32Bytes Config.magic then low.reverse else low
  else if nbits = 64 then
    if low ≠ Config.endMarker ∧ low.reverse = Config.endMarker then low.reverse else low
  else low

/-- The place of the stream a table word is meant for, told by the row's width: 112 bits is HEADER, 64 bits is END. -/
def tablePos (nbits : Nat) : StreamPos :=
  if nbits = 112 then .header else if nbits = 64 then .markerDue else .opcode

/-- The bytes of a table word followed by zeros up to the longest instruction: the operand bytes the table leaves out. -/
def tableStream (nbits w : Nat) : List Byte :=
  let bs := tableBytes nbits w
  bs ++ List.replicate (longestInstr - bs.length) 0

/-- The instruction the decoder reads from a word of the opcode table. -/
def decodeTableWord (nbits w : Nat) : Option Instr :=
  match decodeAt (tablePos nbits) (tableStream nbits w) with
  | .ok (i, _) => some i
  | .error _ => none

end Sys2Proof
end

