-- ==== Sys2Proof/Machine/State.lean ====
section
/-! DEFINITION. The state record of 10_state.md as plain data, the reasons a step can stop, and the state after reset. -/

namespace Sys2Proof.Machine

/-- The five states of the core's state machine (rule R26). -/
inductive Fsm where
  | readingHeader
  | allocatingGrid
  | decodingOpcodes
  | done
  | failed
deriving DecidableEq, Repr

/-- The failure categories of rules R220 and R221; `none` means no failure. -/
inductive Category where
  | none
  | invalid
  | truncated
  | allocationFailure
deriving DecidableEq, Repr

/-- The detail codes of rule R222, in the order of their numbers 0 to 11. -/
inductive Detail where
  | none
  | hdrMagic
  | hdrChannels
  | hdrColorspace
  | pixelOverflow
  | runOverflow
  /-- Reserved: nothing raises it (rules R102, R222; D17). -/
  | badOpcode
  | truncHeader
  | truncOpcode
  | truncOperand
  | truncEndmark
  | alloc
deriving DecidableEq, Repr

/-- `STATUS` of rule R30: the pair (category, detail). -/
structure Status where
  category : Category
  detail : Detail
deriving DecidableEq, Repr

/-- A sparse space: the listed cells by rising address. An unlisted address holds nothing: for the input it is past the
end of the input (or the byte source fails there, rule R61), for the output it is an unwritten cell (rule R65). -/
abbrev Memory (α : Type) := List (Nat × α)

/-- The whole state (10_state.md; one field per row of its summary table), and the two parameters of the step relation
(rule R36), which stand here because `step` takes a state alone (log entry 1). -/
structure State where
  /-- The pixel cache `x[0..63]` (R20). -/
  x : Vector Pixel 64
  /-- The last-emitted pixel (R23). -/
  last : Pixel
  /-- The input byte pointer (R24). -/
  pc : Nat
  /-- `FSM` (R26). -/
  fsm : Fsm
  /-- `WIDTH` (R27). -/
  width : BitVec 32
  /-- `HEIGHT` (R27). -/
  height : BitVec 32
  /-- `CHANNELS` (R27). -/
  channels : Byte
  /-- `COLORSPACE` (R27). -/
  colorspace : Byte
  /-- `TOTAL` (R28). -/
  total : Nat
  /-- `CURSOR` (R29). -/
  cursor : Nat
  /-- `STATUS` (R30). -/
  status : Status
  /-- `PIX` (R65): `none` where it is not allocated (R38) or has been released (R224), else its written cells. -/
  pix : Option (Memory Pixel)
  /-- `IN[0 .. LEN-1]` (R60), a parameter: no step writes it. -/
  input : Memory Byte
  /-- `MAX_PIXELS` (R6), a parameter: no step writes it. -/
  maxPixels : Nat
deriving DecidableEq, Repr

/-- Where the model stops. None of these is a failure of the core: those are next states (rule R224). -/
inductive Fault where
  /-- Raised by `step` in `Done`, which has no step (R200: "`Done` | no step"). Safe: the core does nothing there. -/
  | callDone
  /-- Raised by `step` in `Failed`, which has no step (R200: "`Failed` | no step"). Safe: the core does nothing there. -/
  | callFailed
  /-- Raised by a meaning, or by the allocation step, run in an FSM state where its rule does not enable it (R120, R125,
  R201). `step` never does so. Safe. -/
  | notEnabled
  /-- Raised by `MemWrite` on a cell that does not exist: no output memory, or an index at or past TOTAL (R66 gives such
  a store no meaning). No call reaches it: every caller has checked the bound. Safe. -/
  | noOutputCell
deriving DecidableEq, Repr

/-- Instructions without a meaning. -/
inductive Refusal where
  /-- Raised by an arm of `exec` that has no meaning yet; no arm does. Safe. -/
  | notModelled (mnemonic : String)
deriving DecidableEq, Repr

/-- What every step and every meaning answers. -/
abbrev Outcome := Host.Outcome State Fault Refusal

/-- The state after reset (rule R38). `width`, `height`, `channels`, `colorspace`, `total` "hold no value" there: the
zeros are log entry 3; `maxPixels` is log entry 4; the empty input is log entry 1. -/
def State.reset : State where
  x := Vector.replicate 64 Config.cacheInit
  last := Config.lastInit
  pc := 0
  fsm := .readingHeader
  width := 0
  height := 0
  channels := 0
  colorspace := 0
  total := 0
  cursor := 0
  status := ⟨.none, .none⟩
  pix := none
  input := []
  maxPixels := Config.resetMaxPixels

end Sys2Proof.Machine
end

