-- ==== Sys2Proof/Machine/Flags.lean ====
section
/-! DEFINITION. The core has no stored flags (R33): here are the conditions that are "evaluated where they are used and
are not kept between steps", and the category each detail code belongs to (R222). -/

namespace Sys2Proof.Machine

/-- `CURSOR = TOTAL`, the first condition of the termination test (R33, R202). -/
def State.atTotal (s : State) : Bool := s.cursor == s.total

/-- Emit's overflow test `CURSOR >= TOTAL` (R149). -/
def State.emitOverflows (s : State) : Bool := decide (s.total ≤ s.cursor)

/-- RUN's overflow test `CURSOR + count > TOTAL`, exact (R151, R190). -/
def State.runOverflows (s : State) (count : Nat) : Bool := decide (s.total < s.cursor + count)

/-- The category column of rule R222. -/
def Detail.category : Detail → Category
  | .none => .none
  | .hdrMagic => .invalid
  | .hdrChannels => .invalid
  | .hdrColorspace => .invalid
  | .pixelOverflow => .invalid
  | .runOverflow => .invalid
  | .badOpcode => .invalid
  | .truncHeader => .truncated
  | .truncOpcode => .truncated
  | .truncOperand => .truncated
  | .truncEndmark => .truncated
  | .alloc => .allocationFailure

/-- The first validity test of rule R120 that a header fails, in the order magic, channels, colorspace (R122). -/
def headerFailure (h : Header) : Option Detail :=
  if h.magic ≠ Config.magic then some .hdrMagic
  else if h.channels ≠ 3 ∧ h.channels ≠ 4 then some .hdrChannels
  else if h.colorspace ≠ 0 ∧ h.colorspace ≠ 1 then some .hdrColorspace
  else none

end Sys2Proof.Machine
end

