-- ==== Sys2Proof/Machine/Operands.lean ====
section
/-! DEFINITION. How the operand forms become a pixel: channel addition modulo 256 (R148), the hash (R146), and the pixel
of a delta operation (R180, R181). -/

namespace Sys2Proof.Machine

/-- `v +8 d` of rule R148: `(v + d) mod 256`, silent wrap, no saturation. -/
def add8 (v : Byte) (d : Int) : Byte := BitVec.ofInt 8 ((v.toNat : Int) + d)

/-- The weighted sum of rule R146, on integers without wrap. -/
def hashSum (p : Pixel) : Nat := 3 * p.r.toNat + 5 * p.g.toNat + 7 * p.b.toNat + 11 * p.a.toNat

/-- `Hash(p)` of rule R146: the cache slot a pixel is written to. -/
def pixelHash (p : Pixel) : Fin 64 := Fin.ofNat 64 (hashSum p)

/-- A pixel moved by one delta per colour channel, alpha carried over (R150, R180, R181). -/
def movedPixel (p : Pixel) (dr dg db : Int) : Pixel :=
  ⟨add8 p.r dr, add8 p.g dg, add8 p.b db, p.a⟩

/-- RGB's pixel (R160): the three operand bytes, alpha unchanged from the last pixel. -/
def rgbPixel (p : Pixel) (r g b : Byte) : Pixel := ⟨r, g, b, p.a⟩

/-- LUMA's pixel (R181): `dr = dg + drg`, `db = dg + dbg`. -/
def lumaPixel (p : Pixel) (dg drg dbg : Int) : Pixel :=
  movedPixel p (dg + drg) dg (dg + dbg)

end Sys2Proof.Machine
end

