-- ==== Sys2Proof/Machine/Ops.lean ====
section
/-! DEFINITION. The named operations: the two memory spaces (R60-R66), the registers, taking a failure (R224), the
single-pixel write path (R149), the run write path (R190), and fetching an instruction (R120, R140, R202). -/

namespace Sys2Proof.Machine

/-! ## Sparse memories -/

/-- The cell at an address, if the memory lists one. -/
def Memory.read {α : Type} : Memory α → Nat → Option α
  | [], _ => none
  | (b, w) :: t, a => if a = b then some w else Memory.read t a

/-- The memory with one cell set, addresses kept rising. -/
def Memory.write {α : Type} : Memory α → Nat → α → Memory α
  | [], a, v => [(a, v)]
  | (b, w) :: t, a, v =>
    if a < b then (a, v) :: (b, w) :: t
    else if a = b then (a, v) :: t
    else (b, w) :: Memory.write t a v

/-- The canonical form: addresses strictly rising. (An unlisted address holds nothing, so no entry can equal it.) -/
abbrev Memory.wf {α : Type} (m : Memory α) : Prop := m.Pairwise (fun c d => c.1 < d.1)

/-- The cells `a .. a+n-1` in rising order, or `none` where one of them holds nothing. -/
def Memory.readRange {α : Type} (m : Memory α) : Nat → Nat → Option (List α)
  | _, 0 => some []
  | a, n + 1 =>
    match Memory.read m a, Memory.readRange m (a + 1) n with
    | some v, some vs => some (v :: vs)
    | _, _ => none

/-- `n` copies of a value written to `a .. a+n-1` in rising order, the loop of rule R190. -/
def Memory.writeRun {α : Type} (m : Memory α) (v : α) : Nat → Nat → Memory α
  | _, 0 => m
  | a, n + 1 => Memory.writeRun (Memory.write m a v) v (a + 1) n

/-- A list of values written to `a, a+1, ...` of a memory. -/
def Memory.writeList {α : Type} (m : Memory α) : Nat → List α → Memory α
  | _, [] => m
  | a, v :: vs => Memory.writeList (Memory.write m a v) (a + 1) vs

/-- The memory that holds exactly a list of values, from an address on. -/
def Memory.ofList {α : Type} : Nat → List α → Memory α
  | _, [] => []
  | a, v :: vs => (a, v) :: Memory.ofList (a + 1) vs

/-- The memory lists exactly the addresses below its size: a finite sequence `M[0 .. size-1]` (R60). -/
abbrev Memory.contiguous {α : Type} (m : Memory α) : Prop := m.map Prod.fst = List.range m.length

/-! ## The input space -/

/-- `LEN` of rule R60. -/
def State.len (s : State) : Nat := s.input.length

/-- `MemRead(a, n)` of rule R62: the bytes at `a .. a+n-1`, or `none` where the input ends (or its source fails, R61)
before the last of them. -/
def State.memRead (s : State) (a n : Nat) : Option (List Byte) := Memory.readRange s.input a n

/-- `pc` moved forward past `n` bytes; the only way `pc` changes (R25). -/
def State.advance (n : Nat) (s : State) : State := { s with pc := s.pc + n }

/-- `Fetch(n)` of rule R63: all `n` bytes and the state past them, or nothing. -/
def State.fetch (n : Nat) (s : State) : Option (List Byte × State) :=
  match s.memRead s.pc n with
  | some bs => some (bs, s.advance n)
  | none => none

/-- `Peek(n)` of rule R64: the same bytes, nothing consumed. -/
def State.peek (n : Nat) (s : State) : Option (List Byte) := s.memRead s.pc n

/-! ## The registers -/

/-- Read of cache slot `x[i]` (R21). -/
def State.slot (s : State) (i : Fin 64) : Pixel := s.x[i]

/-- `x[Hash(p)] <- p` (R21, R149): the only way the cache changes. -/
def State.cachePixel (p : Pixel) (s : State) : State := { s with x := s.x.set (pixelHash p) p }

/-- `last <- p` (R23). -/
def State.setLast (p : Pixel) (s : State) : State := { s with last := p }

/-- `CURSOR <- CURSOR + n` (R29). -/
def State.addCursor (n : Nat) (s : State) : State := { s with cursor := s.cursor + n }

/-- `FSM <- f` (R26). -/
def State.setFsm (f : Fsm) (s : State) : State := { s with fsm := f }

/-- `TOTAL <- n` (R28). -/
def State.setTotal (n : Nat) (s : State) : State := { s with total := n }

/-- `STATUS <- st` (R30). -/
def State.setStatus (st : Status) (s : State) : State := { s with status := st }

/-- The output memory replaced: created empty (R125), stored to (R66), or released (R224). -/
def State.setPix (m : Option (Memory Pixel)) (s : State) : State := { s with pix := m }

/-- The four header registers take their values (R120, R123). -/
def State.setHeader (h : Header) (s : State) : State :=
  { s with width := h.width, height := h.height, channels := h.channels, colorspace := h.colorspace }

/-! ## Taking a failure -/

/-- `raise Cat(det)` of rule R224: STATUS is written, FSM becomes `Failed`, the output memory is released (R226), nothing
else changes. There is no return from it but reset (R227). -/
def State.raise (d : Detail) (s : State) : State :=
  ((s.setStatus ⟨d.category, d⟩).setFsm .failed).setPix none

/-- A step's effect in the one FSM state where its rule enables it (R120, R125, R201). -/
def State.whenFsm (f : Fsm) (k : State → Outcome) (s : State) : Outcome :=
  if s.fsm = f then k s else .fault .notEnabled

/-! ## The output space -/

/-- `MemWrite` of rule R66, `n` times from index `k` in rising order (R190). The bound is a precondition: a store outside
`PIX[0 .. TOTAL-1]` has no meaning. -/
def State.memWrite (k n : Nat) (v : Pixel) (s : State) : Outcome :=
  match s.pix with
  | some m =>
    if k + n ≤ s.total then .next (s.setPix (some (Memory.writeRun m v k n))) else .fault .noOutputCell
  | none => .fault .noOutputCell

/-- What follows a store that succeeded. -/
def Outcome.andThen (o : Outcome) (k : State → State) : Outcome :=
  match o with
  | .next s => .next (k s)
  | .fault f => .fault f
  | .refused r => .refused r

/-- `Emit(p)` of rule R149, the single-pixel write path. -/
def State.emit (p : Pixel) (s : State) : Outcome :=
  if s.emitOverflows then .next (s.raise .pixelOverflow)
  else Outcome.andThen (s.memWrite s.cursor 1 p) (fun t => ((t.addCursor 1).setLast p).cachePixel p)

/-- The write path of RUN (R190): the test before any write, `count` copies of `last`, CURSOR, and one cache update;
`last` is unchanged. -/
def State.emitRun (count : Nat) (s : State) : Outcome :=
  if s.runOverflows count then .next (s.raise .runOverflow)
  else Outcome.andThen (s.memWrite s.cursor count s.last) (fun t => (t.addCursor count).cachePixel s.last)

/-- The look-up of INDEX (R170) from slot `i`: past the control byte, the slot is read first, then emitted. -/
def State.emitSlot (i : Fin 64) (s : State) : Outcome := (s.advance 1).emit (s.slot i)

/-! ## Fetching an instruction -/

/-- What fetching gives: an instruction to run, or a failure raised in a state whose `pc` may have moved (R225). -/
inductive Fetched where
  | instr (i : Instr)
  | raised (s : State) (d : Detail)
deriving DecidableEq, Repr

/-- The detail code of a refusal of the decoder (R222). `notEndMarker` is none of them: the loop then dispatches an
opcode and no failure is raised, so the reserved code stands for a case that does not arise (D17). -/
def detailOf : DecodeError → Detail
  | .truncHeader => .truncHeader
  | .truncOpcode => .truncOpcode
  | .truncOperand => .truncOperand
  | .truncEndmark => .truncEndmark
  | .notEndMarker => .badOpcode

/-- A decoder's answer to bytes fetched in full; `s` is the state after the fetch. -/
def Fetched.ofDecoded (s : State) : Except DecodeError (Instr × List Byte) → Fetched
  | .ok (i, _) => .instr i
  | .error e => .raised s (detailOf e)

/-- The fetch of the header step (R120): `Fetch(14)`, then the pure parse (R121). -/
def State.fetchHeader (s : State) : Fetched :=
  match s.fetch 14 with
  | none => .raised s .truncHeader
  | some (bs, s') => Fetched.ofDecoded s' (parseHeader bs)

/-- The fetch of dispatch (R140): the control byte, then as many operand bytes as it announces (R101, R142). -/
def State.fetchOpcode (s : State) : Fetched :=
  match s.fetch 1 with
  | some ([c], s1) =>
    match s1.fetch (operandCount c) with
    | none => .raised s1 .truncOperand
    | some (os, s2) => Fetched.ofDecoded s2 (decodeOpcode (c :: os))
  | _ => .raised s .truncOpcode

/-- The fetch of a loop iteration (R201): the termination test (R202), made only when `CURSOR = TOTAL` (D6), whose marker
is the instruction END; otherwise an opcode. -/
def State.fetchIteration (s : State) : Fetched :=
  if s.atTotal then
    match s.peek 8 with
    | none => .raised s .truncEndmark
    | some m =>
      match matchEndMarker m with
      | .ok (i, _) => .instr i
      | .error _ => s.fetchOpcode
  else s.fetchOpcode

/-- A fetched instruction run by `k`, or the failure taken (R224). -/
def Fetched.run (k : Instr → Outcome) : Fetched → Outcome
  | .instr i => k i
  | .raised s d => .next (s.raise d)

/-! ## Placing an instruction where the core fetches next -/

/-- The state whose loop has room for any opcode: the allocated grid of a 62 by 1 image, where the state has not already
62 free cells. -/
def State.readyForOpcode (s : State) : State :=
  if s.fsm = .decodingOpcodes ∧ s.cursor + 62 ≤ s.total ∧ s.pix.isSome then s
  else
    { s with
      fsm := .decodingOpcodes, width := BitVec.ofNat 32 (s.cursor + 62), height := 1, channels := 4, colorspace := 0,
      total := s.cursor + 62, status := ⟨.none, .none⟩, pix := some (s.pix.getD []) }

/-- The state whose grid is full, so that the termination test is due. -/
def State.readyForEnd (s : State) : State :=
  { s with
    fsm := .decodingOpcodes, width := BitVec.ofNat 32 s.cursor, height := 1, channels := 4, colorspace := 0,
    total := s.cursor, status := ⟨.none, .none⟩, pix := some (s.pix.getD []) }

/-- The state that reads the header next. -/
def State.readyForHeader (s : State) : State :=
  { s with fsm := .readingHeader, status := ⟨.none, .none⟩, pix := none }

/-- The state with the bytes of a table word at `pc`, in the FSM state that fetches that instruction (log entry 10). -/
def State.placeTableWord (s : State) (nbits w : Nat) : State :=
  let ready :=
    match decodeTableWord nbits w with
    | some (.header _) => s.readyForHeader
    | some .endMarker => s.readyForEnd
    | _ => s.readyForOpcode
  { ready with input := Memory.writeList ready.input ready.pc (tableStream nbits w) }

end Sys2Proof.Machine
end

