-- ==== Sys2Proof/Machine/Delta.lean ====
section
/-! DEFINITION. The delta operations DIFF and LUMA (44_delta_ops.md). -/

namespace Sys2Proof.Machine

/-- DIFF, rule R180: past the byte, `Emit` of `last` moved by the three deltas modulo 256, alpha kept. -/
def execDiff (dr dg db : Int) (s : State) : Outcome :=
  s.whenFsm .decodingOpcodes fun s => (s.advance 1).emit (movedPixel s.last dr dg db)

/-- LUMA, rule R181: past the 2 bytes, `Emit` of `last` moved by `dg + drg`, `dg`, `dg + dbg` modulo 256, alpha kept. -/
def execLuma (dg drg dbg : Int) (s : State) : Outcome :=
  s.whenFsm .decodingOpcodes fun s => (s.advance 2).emit (lumaPixel s.last dg drg dbg)

end Sys2Proof.Machine
end

