-- ==== Sys2Proof/Machine/EndMark.lean ====
section
/-! DEFINITION. The pseudo-instruction END: the end marker where it stands in the opcode stream (46_decode_loop.md). -/

namespace Sys2Proof.Machine

/-- END. With `CURSOR = TOTAL` the marker ends the call: `FSM <- Done`, nothing else changes, nothing is consumed (rule
R203). While pixels are missing its bytes are opcodes and the first of them, 0x00, runs as INDEX 0 (rule R104; log
entry 9). -/
def execEndMarker (s : State) : Outcome :=
  s.whenFsm .decodingOpcodes fun s => if s.atTotal then .next (s.setFsm .done) else s.emitSlot 0

end Sys2Proof.Machine
end

