-- ==== Sys2Proof/Machine/Header.lean ====
section
/-! DEFINITION. The two steps before the opcode loop (40_header.md): the pseudo-instruction HEADER and the allocation
step, which is no instruction. -/

namespace Sys2Proof.Machine

/-- HEADER, the header step of rule R120 once its 14 bytes are fetched: `pc` past them, the validity tests in order
(R122), then the four header registers and `FSM <- AllocatingGrid`. -/
def execHeader (h : Header) (s : State) : Outcome :=
  s.whenFsm .readingHeader fun s =>
    match headerFailure h with
    | some d => .next ((s.advance 14).raise d)
    | none => .next (((s.advance 14).setHeader h).setFsm .allocatingGrid)

/-- The allocation step of rule R125: `TOTAL` is the exact product, failure when it exceeds MAX_PIXELS, else `PIX` is
created with every cell unwritten. -/
def State.allocate (s : State) : Outcome :=
  s.whenFsm .allocatingGrid fun s =>
    if s.maxPixels < s.width.toNat * s.height.toNat then
      .next ((s.setTotal (s.width.toNat * s.height.toNat)).raise .alloc)
    else
      .next (((s.setTotal (s.width.toNat * s.height.toNat)).setPix (some [])).setFsm .decodingOpcodes)

end Sys2Proof.Machine
end

