-- ==== Sys2Proof/Machine/Index.lean ====
section
/-! DEFINITION. The cache look-up INDEX (43_index_op.md). -/

namespace Sys2Proof.Machine

/-- INDEX, rule R170: past the byte, `Emit(x[idx])`. Emit's update goes to slot `Hash(p)`, also here (C3). -/
def execIndex (idx : Fin 64) (s : State) : Outcome :=
  s.whenFsm .decodingOpcodes fun s => s.emitSlot idx

end Sys2Proof.Machine
end

