-- ==== Sys2Proof/Machine/Literal.lean ====
section
/-! DEFINITION. The literal operations RGB and RGBA (42_literal_ops.md). -/

namespace Sys2Proof.Machine

/-- RGB, rule R160: past the 4 bytes, `Emit((r, g, b, last.a))`. -/
def execRgb (r g b : Byte) (s : State) : Outcome :=
  s.whenFsm .decodingOpcodes fun s => (s.advance 4).emit (rgbPixel s.last r g b)

/-- RGBA, rule R161: past the 5 bytes, `Emit((r, g, b, a))`. -/
def execRgba (r g b a : Byte) (s : State) : Outcome :=
  s.whenFsm .decodingOpcodes fun s => (s.advance 5).emit ⟨r, g, b, a⟩

end Sys2Proof.Machine
end

