-- ==== Sys2Proof/Machine/Run.lean ====
section
/-! DEFINITION. The run-length repeat RUN (45_run_op.md). -/

namespace Sys2Proof.Machine

/-- RUN, rule R190: past the byte, `count` copies of `last`, one cache update, `last` unchanged. -/
def execRun (count : Nat) (s : State) : Outcome :=
  s.whenFsm .decodingOpcodes fun s => (s.advance 1).emitRun count

end Sys2Proof.Machine
end

