-- ==== Sys2Proof/Machine/Dispatch.lean ====
section
/-! DEFINITION. The dispatch of a decoded instruction to its meaning, one arm per constructor of Instr (R140). -/

namespace Sys2Proof.Machine

def exec (i : Instr) (s : State) : Host.Outcome State Fault Refusal :=
  match i with
  | .rgb r g b => Sys2Proof.Machine.execRgb r g b s
  | .rgba r g b a => Sys2Proof.Machine.execRgba r g b a s
  | .index idx => Sys2Proof.Machine.execIndex idx s
  | .diff dr dg db => Sys2Proof.Machine.execDiff dr dg db s
  | .luma dg drg dbg => Sys2Proof.Machine.execLuma dg drg dbg s
  | .run count => Sys2Proof.Machine.execRun count s
  | .header h => Sys2Proof.Machine.execHeader h s
  | .endMarker => Sys2Proof.Machine.execEndMarker s

end Sys2Proof.Machine
end

