-- ==== Sys2Proof/Machine/Step.lean ====
section
/-! DEFINITION. One step of the core (R11, R200): the header step, the allocation step, or one iteration of the decode
loop; `Done` and `Failed` have none. -/

namespace Sys2Proof.Machine

/-- The transitions of rule R200. -/
def step (s : State) : Host.Outcome State Fault Refusal :=
  match s.fsm with
  | .readingHeader => s.fetchHeader.run (fun i => exec i s)
  | .allocatingGrid => s.allocate
  | .decodingOpcodes => s.fetchIteration.run (fun i => exec i s)
  | .done => .fault .callDone
  | .failed => .fault .callFailed

/-- `s` with the instruction that the opcode table gives as the word `w` of `nbits` bits placed where the next step
fetches (log entry 10). -/
def State.withFetchWord (s : State) (nbits w : Nat) : State := s.placeTableWord nbits w

end Sys2Proof.Machine
end

