-- ==== Sys2Proof/Machine/HostView.lean ====
section
/-! DEFINITION. What the host can do and see: reset and the start of a call (R250, R253), the host-visible registers
(R32) with their numeric codes (R26, R221, R222), the Image (R31, R210), and how it is laid out (R67, R71). -/

namespace Sys2Proof.Machine

/-- Reset (R250): in any state, every piece of state takes its value of rule R38 and a new call begins on the input and
the output memory the host provides (R253). Nothing survives (R251). -/
def State.hostReset (_s : State) (bytes : List Byte) (maxPixels : Nat) : State :=
  { State.reset with input := Memory.ofList 0 bytes, maxPixels := maxPixels }

/-- The state codes 0 to 4 of rule R26. -/
def Fsm.code : Fsm → Nat
  | .readingHeader => 0
  | .allocatingGrid => 1
  | .decodingOpcodes => 2
  | .done => 3
  | .failed => 4

/-- The category codes of rule R221. -/
def Category.code : Category → Nat
  | .none => 0
  | .invalid => 1
  | .truncated => 2
  | .allocationFailure => 3

/-- The detail codes of rule R222. -/
def Detail.code : Detail → Nat
  | .none => 0
  | .hdrMagic => 1
  | .hdrChannels => 2
  | .hdrColorspace => 3
  | .pixelOverflow => 4
  | .runOverflow => 5
  | .badOpcode => 6
  | .truncHeader => 7
  | .truncOpcode => 8
  | .truncOperand => 9
  | .truncEndmark => 10
  | .alloc => 11

/-- The host-visible registers of rule R32. -/
inductive HostReg where
  | fsm
  | category
  | detail
  | width
  | height
  | channels
  | colorspace
  | total
deriving DecidableEq, Repr

/-- The "number" column of rule R32. -/
def HostReg.number : HostReg → Nat
  | .fsm => 0
  | .category => 1
  | .detail => 2
  | .width => 3
  | .height => 4
  | .channels => 5
  | .colorspace => 6
  | .total => 7

/-- The "width" column of rule R32, in bits. -/
def HostReg.bits : HostReg → Nat
  | .fsm => 3
  | .category => 2
  | .detail => 4
  | .width => 32
  | .height => 32
  | .channels => 8
  | .colorspace => 8
  | .total => 64

/-- The register a state holds, as a number. -/
def HostReg.value (r : HostReg) (s : State) : Nat :=
  match r with
  | .fsm => s.fsm.code
  | .category => s.status.category.code
  | .detail => s.status.detail.code
  | .width => s.width.toNat
  | .height => s.height.toNat
  | .channels => s.channels.toNat
  | .colorspace => s.colorspace.toNat
  | .total => s.total

/-- The "valid when" column of rule R32: FSM and STATUS always, the rest in `Done`. -/
def HostReg.validIn (r : HostReg) (f : Fsm) : Bool := decide (r.number ≤ 2) || f == .done

/-- The host's read of a register (R32). Where it is not valid it "returns no defined value": a free value of the
register's width, one per read (`draw`), log entry 6. -/
def State.hostRead (s : State) (r : HostReg) (draw : Nat) : Nat :=
  if r.validIn s.fsm then r.value s else (Config.freeRegister r.number draw).toNat % 2 ^ r.bits

/-- The Image of rule R31. -/
structure Image where
  width : BitVec 32
  height : BitVec 32
  channels : Byte
  colorspace : Byte
  pixels : List Pixel
deriving DecidableEq, Repr

/-- The Image the host receives (R31, R210): in `Done` only, and only with every cell of `PIX[0 .. TOTAL-1]` written. -/
def State.image (s : State) : Option Image :=
  match s.fsm, s.pix with
  | .done, some m => (Memory.readRange m 0 s.total).map (Image.mk s.width s.height s.channels s.colorspace)
  | _, _ => none

/-- A pixel as one 32-bit word: `r` in bits 31:24, `g` in 23:16, `b` in 15:8, `a` in 7:0 (R71; log entry 11). -/
def packPixel (p : Pixel) : BitVec 32 := p.r ++ p.g ++ p.b ++ p.a

/-- The pixel a packed word stands for (R71). -/
def unpackPixel (w : BitVec 32) : Pixel :=
  ⟨w.extractLsb' 24 8, w.extractLsb' 16 8, w.extractLsb' 8 8, w.extractLsb' 0 8⟩

/-- A pixel as four bytes at increasing byte address (R71). -/
def pixelBytes (p : Pixel) : List Byte := [p.r, p.g, p.b, p.a]

/-- The host's read of output cell `k` (R76, R226): the pixel in `Done`, a free value in `Failed` (U5, log entry 6), and
no read at all before the call has ended (R78). -/
def State.hostReadPixel (s : State) (k draw : Nat) : Option Pixel :=
  match s.fsm with
  | .done => s.pix.bind (fun m => Memory.read m k)
  | .failed => some (unpackPixel (Config.freePixel k draw))
  | _ => none

/-- Column and row of `PIX[k]` in a grid `width` pixels wide (R67; log entry 11): rows top to bottom, columns left to
right. -/
def gridPosition (width k : Nat) : Nat × Nat := (k % width, k / width)

/-- The index of the pixel at a column and row: what `gridPosition` undoes (R67). -/
def gridIndex (width column row : Nat) : Nat := row * width + column

/-- The pixel of an Image at a column and row (R67). -/
def Image.at (im : Image) (column row : Nat) : Option Pixel :=
  if column < im.width.toNat ∧ row < im.height.toNat then im.pixels[gridIndex im.width.toNat column row]? else none

end Sys2Proof.Machine
end

