-- ==== Sys2Proof/Safety.lean ====
section
/-! DEFINITION. The terms claims are stated in: the end of a call, the two explicit outcomes of an operation, the pixels a
stream stands for told without a cache, the invariant of every call (R22, R37), and the other peek policy of rule R206. -/

namespace Sys2Proof.Safety

open Sys2Proof.Machine

/-! ## Outcomes, written out field by field -/

/-- The call has ended: `Done` or `Failed` (R200). -/
def terminal (s : State) : Prop := s.fsm = .done ∨ s.fsm = .failed

/-- What a single-pixel operation of `n` bytes leaves (R149, R160): pixel `p` at the cursor, the cursor one further, `p` in
`last` and in cache slot `Hash(p)`, and nothing else changed. `m` is what PIX held. -/
def afterPixel (s : State) (m : Memory Pixel) (n : Nat) (p : Pixel) : State :=
  { s with
    pc := s.pc + n, pix := some (Memory.write m s.cursor p), cursor := s.cursor + 1, last := p,
    x := s.x.set (pixelHash p) p }

/-- What a failure raised past `n` bytes leaves (R224): STATUS, FSM, PIX released, and nothing else changed. -/
def afterFailure (s : State) (n : Nat) (c : Category) (d : Detail) : State :=
  { s with pc := s.pc + n, status := ⟨c, d⟩, fsm := .failed, pix := none }

/-! ## The pixels of a stream, told without a cache -/

/-- The last of the pixels emitted so far, or the reset content of `last` (R23). -/
def lastOf (ps : List Pixel) : Pixel := (ps.getLast?).getD Config.lastInit

/-- The pixel most recently emitted whose hash is `h`, or the reset content of a slot (R22). -/
def slotOf (ps : List Pixel) (h : Fin 64) : Pixel := (ps.reverse.find? (fun p => pixelHash p == h)).getD Config.cacheInit

/-- The pixels one instruction emits after the pixels `ps`. -/
def emitted (ps : List Pixel) : Instr → List Pixel
  | .rgb r g b => [⟨r, g, b, (lastOf ps).a⟩]
  | .rgba r g b a => [⟨r, g, b, a⟩]
  | .index idx => [slotOf ps idx]
  | .diff dr dg db => [movedPixel (lastOf ps) dr dg db]
  | .luma dg drg dbg => [movedPixel (lastOf ps) (dg + drg) dg (dg + dbg)]
  | .run count => List.replicate count (lastOf ps)
  | .header _ => []
  | .endMarker => []

/-- The pixels a list of opcodes emits, in order (R210). -/
def pixelsOf (is : List Instr) : List Pixel := is.foldl (fun ps i => ps ++ emitted ps i) []

/-- The bytes of a whole well-formed input (R90): header, opcodes, end marker. -/
def streamOf (h : Header) (is : List Instr) : List Byte :=
  encode (.header h) ++ is.flatMap encode ++ encode .endMarker

/-- How many pixels an opcode emits (the table's "pixels_emitted"). -/
def pixelCount : Instr → Nat
  | .rgb _ _ _ => 1
  | .rgba _ _ _ _ => 1
  | .index _ => 1
  | .diff _ _ _ => 1
  | .luma _ _ _ => 1
  | .run count => count
  | .header _ => 0
  | .endMarker => 0

/-! ## Invariants -/

/-- The state holds exactly the pixels `ps`: PIX in index order, and `last` and every cache slot as `ps` make them
(R22, R37). -/
structure Holds (s : State) (ps : List Pixel) : Prop where
  pix_eq : s.pix = some (Memory.ofList 0 ps)
  cursor_eq : s.cursor = ps.length
  last_eq : s.last = lastOf ps
  slot_eq : ∀ h : Fin 64, s.slot h = slotOf ps h

/-- The invariant of a decode call (R22, R26 to R31, R37). -/
structure Inv (s : State) : Prop where
  /-- STATUS is a pair of rule R222. -/
  status_pair : s.status.category = s.status.detail.category
  /-- STATUS names a failure in `Failed` and only there (R30). -/
  failed_iff : s.fsm = .failed ↔ s.status.category ≠ .none
  /-- R29, R37 (a). -/
  cursor_le : s.cursor ≤ s.total
  /-- R37 (d). -/
  last_cached : s.slot (pixelHash s.last) = s.last
  /-- Before the grid exists nothing has been emitted (R38). -/
  before_grid : s.fsm = .readingHeader ∨ s.fsm = .allocatingGrid → s.pix = none ∧ Holds { s with pix := some [] } []
  /-- The header registers have passed the check (R27). -/
  header_valid : s.fsm = .allocatingGrid ∨ s.fsm = .decodingOpcodes ∨ s.fsm = .done →
    (s.channels = 3 ∨ s.channels = 4) ∧ (s.colorspace = 0 ∨ s.colorspace = 1)
  /-- R22, R37 (b), (c). -/
  grid : s.fsm = .decodingOpcodes ∨ s.fsm = .done → ∃ ps, Holds s ps
  /-- R28, R125; the bound by MAX_PIXELS is decision D8 (log entry 4). -/
  total_eq : s.fsm = .decodingOpcodes ∨ s.fsm = .done →
    s.total = s.width.toNat * s.height.toNat ∧ s.total ≤ s.maxPixels
  /-- R37 (e). -/
  done_full : s.fsm = .done → s.cursor = s.total
  /-- R224, R226; that the released output is `none` is log entry 15 (D11). -/
  released : s.fsm = .failed → s.pix = none

/-- Both memories are in canonical form. -/
def MemoryCanonical (s : State) : Prop := Memory.wf s.input ∧ ∀ m, s.pix = some m → Memory.wf m

/-! ## The other peek policy -/

/-- A step under policy B of rule R206: every iteration peeks 8 bytes first, "whatever CURSOR is", and fails `Truncated`
when fewer remain. -/
def stepPeekAlways (s : State) : Outcome :=
  if s.fsm = .decodingOpcodes ∧ s.peek 8 = none then .next (s.raise .truncEndmark) else step s

/-- The machine under policy B. -/
def corePeekAlways : Host.Core :=
  { State := State, Fault := Fault, Refusal := Refusal, step := stepPeekAlways, reset := State.reset }

end Sys2Proof.Safety
end

