-- ==== Sys2Proof/Certificates/Slice0/Obligations.lean ====
section
/-! DEFINITION. The statements for the provers. Each docstring names the rule or the section of spec/ it formalises, and
where it rests on a decision of the spec or of the model, says so. -/

open Sys2Proof Sys2Proof.Machine Sys2Proof.Safety

/-! ## Encoding -/

/-- R109 and R110 (the spec's own syntax, D19): every well-formed instruction, at every operand the encoding admits, is
read back from its encoding, whatever follows it. The LUMA part rests on decision D4 (log entry 8). -/
def Obligations.DecodeOfEncodeIsTheInstruction : Prop :=
  ∀ (i : Instr) (rest : List Byte), i.wf = true → decodeAt i.position (encode i ++ rest) = .ok (i, rest)

/-- R141: decode is injective on opcodes (the bytes read are the encoding of the opcode they give, which is one of the six
and has operands in range), total on control bytes followed by enough operands, and fails only for want of bytes. -/
def Obligations.OpcodeDecodeIsInjectiveAndTotal : Prop :=
  (∀ (bs : List Byte) (i : Instr) (rest : List Byte), decodeOpcode bs = .ok (i, rest) →
    i.isOpcode = true ∧ i.wf = true ∧ encode i ++ rest = bs) ∧
  (∀ (c : Byte) (os : List Byte), operandCount c ≤ os.length →
    ∃ i rest, decodeOpcode (c :: os) = .ok (i, rest)) ∧
  (∀ (bs : List Byte) (e : DecodeError), decodeOpcode bs = .error e →
    (bs = [] ∧ e = .truncOpcode) ∨
    (∃ c os, bs = c :: os ∧ os.length < operandCount c ∧ e = .truncOperand))

/-- R93: the precedence (0xFE, then 0xFF, then the top two bits) and the fields of every kind, read with bit slices. The
LUMA line gives its second byte by decision D4 (log entry 8), so the statement is derived. -/
def Obligations.ControlByteSelectsKindAndFields : Prop :=
  ∀ (c o1 o2 o3 o4 : Byte),
    decodeOpcode [c, o1, o2, o3, o4] =
      (if c = 0xFE then .ok (.rgb o1 o2 o3, [o4])
       else if c = 0xFF then .ok (.rgba o1 o2 o3 o4, [])
       else if c.extractLsb' 6 2 = 0 then .ok (.index (c.extractLsb' 0 6).toFin, [o1, o2, o3, o4])
       else if c.extractLsb' 6 2 = 1 then
         .ok (.diff ((c.extractLsb' 4 2).toNat - 2) ((c.extractLsb' 2 2).toNat - 2) ((c.extractLsb' 0 2).toNat - 2),
           [o1, o2, o3, o4])
       else if c.extractLsb' 6 2 = 2 then
         .ok (.luma ((c.extractLsb' 0 6).toNat - 32) ((o1.extractLsb' 4 4).toNat - 8) ((o1.extractLsb' 0 4).toNat - 8),
           [o2, o3, o4])
       else .ok (.run ((c.extractLsb' 0 6).toNat + 1), [o1, o2, o3, o4]))

/-- R101: the control byte alone gives the kind and the length, by the table's six ranges. -/
def Obligations.ControlByteGivesLength : Prop :=
  ∀ (c : Byte) (os : List Byte) (i : Instr) (rest : List Byte), decodeOpcode (c :: os) = .ok (i, rest) →
    os.length + 1 = i.length + rest.length ∧
    (c.toNat ≤ 0x3F → (∃ idx, i = .index idx) ∧ i.length = 1) ∧
    (0x40 ≤ c.toNat ∧ c.toNat ≤ 0x7F → (∃ dr dg db, i = .diff dr dg db) ∧ i.length = 1) ∧
    (0x80 ≤ c.toNat ∧ c.toNat ≤ 0xBF → (∃ dg drg dbg, i = .luma dg drg dbg) ∧ i.length = 2) ∧
    (0xC0 ≤ c.toNat ∧ c.toNat ≤ 0xFD → (∃ count, i = .run count) ∧ i.length = 1) ∧
    (c.toNat = 0xFE → (∃ r g b, i = .rgb r g b) ∧ i.length = 4) ∧
    (c.toNat = 0xFF → (∃ r g b a, i = .rgba r g b a) ∧ i.length = 5)

/-- R91, R92, R94 to R99, R108: words written out bit by bit from the formats decode to what they stand for. -/
def Obligations.WrittenOutWordsDecode : Prop :=
  decodeOpcode [0b11111110, 0b00001010, 0b00010100, 0b00011110] = .ok (.rgb 10 20 30, []) ∧
  decodeOpcode [0b11111111, 0b11111010, 0b00000101, 0b10000000, 0b01100100] = .ok (.rgba 250 5 128 100, []) ∧
  decodeOpcode [0b00001001] = .ok (.index 9, []) ∧
  decodeOpcode [0b01110011] = .ok (.diff 1 (-2) 1, []) ∧
  decodeOpcode [0b10101010, 0b01011111] = .ok (.luma 10 (-3) 7, []) ∧
  decodeOpcode [0b11111101] = .ok (.run 62, []) ∧
  decodeAt .header [0x71, 0x6F, 0x69, 0x66, 0, 0, 7, 0x80, 0, 0, 4, 0x38, 3, 0] =
    .ok (.header ⟨0x716F6966, 1920, 1080, 3, 0⟩, []) ∧
  decodeAt .markerDue [0, 0, 0, 0, 0, 0, 0, 1] = .ok (.endMarker, [])

/-! ## The two memory spaces -/

/-- R62: on an input `IN[0 .. LEN-1]` a read of `n` bytes at `a` delivers `IN[a], IN[a+1], ..., IN[a+n-1]` when
`a + n <= LEN`, and is refused when `a + n > LEN`. (It is a function of the state, so it changes none.) -/
def Obligations.MemReadDeliversExactlyTheInput : Prop :=
  ∀ (s : State) (a n : Nat), Memory.contiguous s.input → 1 ≤ n →
    (a + n ≤ s.len → ∃ bs, s.memRead a n = some bs ∧ bs.length = n ∧
      ∀ k < n, ∃ b, s.input[a + k]? = some (a + k, b) ∧ bs[k]? = some b) ∧
    (s.len < a + n → s.memRead a n = none)

/-- R63 and R64: a fetch delivers the bytes at `pc` and moves `pc` past them, or delivers nothing; a peek delivers the same
bytes and, being a function of the state, moves nothing. -/
def Obligations.FetchConsumesAndPeekDoesNot : Prop :=
  ∀ (s : State) (n : Nat),
    (∀ bs, s.memRead s.pc n = some bs → s.fetch n = some (bs, { s with pc := s.pc + n }) ∧ s.peek n = some bs) ∧
    (s.memRead s.pc n = none → s.fetch n = none ∧ s.peek n = none)

/-- R66: a store of `n` pixels at `k` inside `PIX[0 .. TOTAL-1]` sets exactly those cells and nothing else of the state;
a store outside, or with no output memory, has no meaning (the model stops). -/
def Obligations.MemWriteSetsExactlyItsCells : Prop :=
  ∀ (s : State) (k n : Nat) (v : Pixel),
    (∀ m, s.pix = some m → k + n ≤ s.total → ∃ m', s.memWrite k n v = .next { s with pix := some m' } ∧
      ∀ a, Memory.read m' a = if k ≤ a ∧ a < k + n then some v else Memory.read m a) ∧
    (s.pix = none ∨ s.total < k + n → s.memWrite k n v = .fault .noOutputCell)

/-! ## Operands -/

/-- R146: the hash is the weighted sum modulo 64, on integers; the sum never exceeds 6630; the rule's example. -/
def Obligations.HashIsTheWeightedSumModulo64 : Prop :=
  (∀ p : Pixel, (pixelHash p).val = (3 * p.r.toNat + 5 * p.g.toNat + 7 * p.b.toNat + 11 * p.a.toNat) % 64 ∧
    hashSum p ≤ 6630) ∧
  pixelHash ⟨25, 30, 244, 212⟩ = 41

/-- R147 (c) to (f): the fixed values, the independence of multiples of 64 in any channel, and that letting the sum wrap
at any width of 6 bits or more changes nothing. Parts (e) and (f) are marked derived by the spec. -/
def Obligations.HashIgnoresMultiplesOf64AndWrapping : Prop :=
  pixelHash ⟨0, 0, 0, 255⟩ = 53 ∧ pixelHash ⟨0, 0, 0, 0⟩ = 0 ∧
  (∀ p : Pixel, pixelHash { p with r := p.r + 64 } = pixelHash p ∧ pixelHash { p with g := p.g + 64 } = pixelHash p ∧
    pixelHash { p with b := p.b + 64 } = pixelHash p ∧ pixelHash { p with a := p.a + 64 } = pixelHash p) ∧
  ∀ (p : Pixel) (w : Nat), 6 ≤ w → hashSum p % 2 ^ w % 64 = (pixelHash p).val

/-- R148: channel addition is modulo 256 with a result in 0..255, and equals adding the raw field and subtracting the bias,
each in wrapping 8-bit arithmetic; the rule's four examples. -/
def Obligations.ChannelAdditionWrapsModulo256 : Prop :=
  (∀ (v : Byte) (d : Int), ((add8 v d).toNat : Int) = (v.toNat + d) % 256) ∧
  (∀ (v : Byte) (raw bias : Nat),
    add8 v (raw - bias) = v + BitVec.ofNat 8 raw - BitVec.ofNat 8 bias) ∧
  add8 0 (-2) = 254 ∧ add8 255 1 = 0 ∧ add8 250 38 = 32 ∧ add8 0 (-40) = 216

/-- R149: `Emit(p)`. Past a full grid it fails with PIXEL_OVERFLOW and writes nothing of PIX, CURSOR, `last` and the cache
but the release of PIX (R224); else it stores, advances, sets `last`, and writes slot `Hash(p)` unconditionally. -/
def Obligations.EmitStoresAdvancesAndCaches : Prop :=
  ∀ (s : State) (p : Pixel),
    (s.total ≤ s.cursor → s.emit p = .next (afterFailure s 0 .invalid .pixelOverflow)) ∧
    (∀ m, s.cursor < s.total → s.pix = some m → s.emit p = .next (afterPixel s m 0 p)) ∧
    (∀ m a, Memory.read (Memory.write m s.cursor p) a = if a = s.cursor then some p else Memory.read m a) ∧
    (∀ m n h, (afterPixel s m n p).slot h = if h = pixelHash p then p else s.slot h)

/-! ## The instructions: result and completion -/

/-- R160. RGB completes with the pixel (r, g, b, last.a) where the grid has room, fails with PIXEL_OVERFLOW where it has
not, and from its bytes `FE r g b` a step runs it; with fewer than 3 operand bytes left the step fails with TRUNC_OPERAND. -/
def Obligations.RgbEmitsItsBytesWithLastAlpha : Prop :=
  ∀ (r g b : Byte) (s : State), s.fsm = .decodingOpcodes →
    (∀ m, s.cursor < s.total → s.pix = some m →
      exec (.rgb r g b) s = .next (afterPixel s m 4 ⟨r, g, b, s.last.a⟩) ∧
      (s.memRead s.pc 4 = some [0xFE, r, g, b] → step s = .next (afterPixel s m 4 ⟨r, g, b, s.last.a⟩))) ∧
    (s.total ≤ s.cursor → exec (.rgb r g b) s = .next (afterFailure s 4 .invalid .pixelOverflow)) ∧
    (s.cursor ≠ s.total → s.memRead s.pc 1 = some [0xFE] → s.memRead (s.pc + 1) 3 = none →
      step s = .next (afterFailure s 1 .truncated .truncOperand))

/-- R161. RGBA completes with the pixel (r, g, b, a) where the grid has room, fails with PIXEL_OVERFLOW where it has not,
and from its bytes `FF r g b a` a step runs it; with fewer than 4 operand bytes left the step fails with TRUNC_OPERAND. -/
def Obligations.RgbaEmitsItsFourBytes : Prop :=
  ∀ (r g b a : Byte) (s : State), s.fsm = .decodingOpcodes →
    (∀ m, s.cursor < s.total → s.pix = some m →
      exec (.rgba r g b a) s = .next (afterPixel s m 5 ⟨r, g, b, a⟩) ∧
      (s.memRead s.pc 5 = some [0xFF, r, g, b, a] → step s = .next (afterPixel s m 5 ⟨r, g, b, a⟩))) ∧
    (s.total ≤ s.cursor → exec (.rgba r g b a) s = .next (afterFailure s 5 .invalid .pixelOverflow)) ∧
    (s.cursor ≠ s.total → s.memRead s.pc 1 = some [0xFF] → s.memRead (s.pc + 1) 4 = none →
      step s = .next (afterFailure s 1 .truncated .truncOperand))

/-- R170. INDEX completes with the pixel its slot holds before the update, all four channels; the update goes to slot
`Hash(p)`; it fails with PIXEL_OVERFLOW on a full grid; from its byte a step runs it. -/
def Obligations.IndexEmitsItsSlot : Prop :=
  ∀ (idx : Fin 64) (s : State), s.fsm = .decodingOpcodes →
    (∀ m, s.cursor < s.total → s.pix = some m →
      exec (.index idx) s = .next (afterPixel s m 1 s.x[idx]) ∧
      (s.memRead s.pc 1 = some [BitVec.ofNat 8 idx.val] → step s = .next (afterPixel s m 1 s.x[idx]))) ∧
    (s.total ≤ s.cursor → exec (.index idx) s = .next (afterFailure s 1 .invalid .pixelOverflow))

/-- R180. DIFF completes with `last` moved by the three deltas modulo 256, alpha carried over; it fails with PIXEL_OVERFLOW
on a full grid; from its byte `01rrggbb` a step runs it with the deltas raw minus 2. -/
def Obligations.DiffAddsThreeDeltas : Prop :=
  ∀ (dr dg db : Int) (s : State), s.fsm = .decodingOpcodes →
    (∀ m, s.cursor < s.total → s.pix = some m →
      exec (.diff dr dg db) s =
        .next (afterPixel s m 1 ⟨add8 s.last.r dr, add8 s.last.g dg, add8 s.last.b db, s.last.a⟩)) ∧
    (∀ m (rr gg bb : BitVec 2), s.cursor < s.total → s.pix = some m →
      s.memRead s.pc 1 = some [(0b01 : BitVec 2) ++ rr ++ gg ++ bb] →
      step s = .next (afterPixel s m 1
        ⟨add8 s.last.r (rr.toNat - 2), add8 s.last.g (gg.toNat - 2), add8 s.last.b (bb.toNat - 2), s.last.a⟩)) ∧
    (s.total ≤ s.cursor → exec (.diff dr dg db) s = .next (afterFailure s 1 .invalid .pixelOverflow))

/-- 44_delta_ops.md, LUMA. It completes with `last` moved by `dg + drg`, `dg`, `dg + dbg` modulo 256, alpha carried over; it
fails with PIXEL_OVERFLOW on a full grid; from its bytes `10gggggg rrrrbbbb` a step runs it, and with no operand byte the
step fails with TRUNC_OPERAND. That the high nibble is red is the spec's decision D4 (log entry 8), so it is derived. -/
def Obligations.LumaAddsGreenRelativeDeltas : Prop :=
  ∀ (dg drg dbg : Int) (s : State), s.fsm = .decodingOpcodes →
    (∀ m, s.cursor < s.total → s.pix = some m →
      exec (.luma dg drg dbg) s =
        .next (afterPixel s m 2
          ⟨add8 s.last.r (dg + drg), add8 s.last.g dg, add8 s.last.b (dg + dbg), s.last.a⟩)) ∧
    (∀ m (gg : BitVec 6) (rr bb : BitVec 4), s.cursor < s.total → s.pix = some m →
      s.memRead s.pc 2 = some [(0b10 : BitVec 2) ++ gg, rr ++ bb] →
      step s = .next (afterPixel s m 2
        ⟨add8 s.last.r ((gg.toNat - 32) + (rr.toNat - 8)), add8 s.last.g (gg.toNat - 32),
          add8 s.last.b ((gg.toNat - 32) + (bb.toNat - 8)), s.last.a⟩)) ∧
    (s.total ≤ s.cursor → exec (.luma dg drg dbg) s = .next (afterFailure s 2 .invalid .pixelOverflow)) ∧
    (∀ gg : BitVec 6, s.cursor ≠ s.total → s.memRead s.pc 1 = some [(0b10 : BitVec 2) ++ gg] →
      s.memRead (s.pc + 1) 1 = none → step s = .next (afterFailure s 1 .truncated .truncOperand))

/-- R190. RUN completes, where `CURSOR + count <= TOTAL`, with `count` copies of `last` in `PIX[CURSOR .. CURSOR+count-1]`,
CURSOR moved by `count`, slot `Hash(last)` written once, `last` unchanged; else it fails with RUN_OVERFLOW and writes
nothing. From its byte a step runs it (every raw value 0..61). -/
def Obligations.RunRepeatsTheLastPixel : Prop :=
  ∀ (count : Nat) (s : State), s.fsm = .decodingOpcodes →
    (∀ m, s.cursor + count ≤ s.total → s.pix = some m → ∃ m',
      exec (.run count) s = .next
        { s with
          pc := s.pc + 1, pix := some m', cursor := s.cursor + count, x := s.x.set (pixelHash s.last) s.last } ∧
      (∀ a, Memory.read m' a = if s.cursor ≤ a ∧ a < s.cursor + count then some s.last else Memory.read m a)) ∧
    (s.total < s.cursor + count → exec (.run count) s = .next (afterFailure s 1 .invalid .runOverflow)) ∧
    (1 ≤ count → count ≤ 62 → s.cursor < s.total →
      s.memRead s.pc 1 = some [BitVec.ofNat 8 (0xC0 + (count - 1))] → step s = exec (.run count) s)

/-- 40_header.md section 1. A header with the magic, channels 3 or 4, colorspace 0 or 1 is accepted: `pc` moves by 14, the
four registers take its fields, FSM becomes AllocatingGrid, nothing else changes. Any other fails with `Invalid`, and the
detail is that of the first failing test in the order magic, channels, colorspace (the order is the spec's own choice,
D12). -/
def Obligations.HeaderIsCheckedAndStored : Prop :=
  ∀ (h : Header) (s : State), s.fsm = .readingHeader →
    (h.magic = 0x716F6966 ∧ (h.channels = 3 ∨ h.channels = 4) ∧ (h.colorspace = 0 ∨ h.colorspace = 1) →
      exec (.header h) s = .next
        { s with
          pc := s.pc + 14, width := h.width, height := h.height, channels := h.channels, colorspace := h.colorspace,
          fsm := .allocatingGrid }) ∧
    (h.magic ≠ 0x716F6966 → exec (.header h) s = .next (afterFailure s 14 .invalid .hdrMagic)) ∧
    (h.magic = 0x716F6966 → h.channels ≠ 3 → h.channels ≠ 4 →
      exec (.header h) s = .next (afterFailure s 14 .invalid .hdrChannels)) ∧
    (h.magic = 0x716F6966 → (h.channels = 3 ∨ h.channels = 4) → h.colorspace ≠ 0 → h.colorspace ≠ 1 →
      exec (.header h) s = .next (afterFailure s 14 .invalid .hdrColorspace))

/-- R121: given exactly 14 bytes the parse produces a Header value, width and height big-endian; with fewer it is refused. -/
def Obligations.HeaderParseIsBigEndianAndPure : Prop :=
  (∀ m0 m1 m2 m3 w0 w1 w2 w3 h0 h1 h2 h3 c cs : Byte, ∃ h : Header,
    parseHeader [m0, m1, m2, m3, w0, w1, w2, w3, h0, h1, h2, h3, c, cs] = .ok (.header h, []) ∧
    h.magic.toNat = m0.toNat * 2 ^ 24 + m1.toNat * 2 ^ 16 + m2.toNat * 2 ^ 8 + m3.toNat ∧
    h.width.toNat = w0.toNat * 2 ^ 24 + w1.toNat * 2 ^ 16 + w2.toNat * 2 ^ 8 + w3.toNat ∧
    h.height.toNat = h0.toNat * 2 ^ 24 + h1.toNat * 2 ^ 16 + h2.toNat * 2 ^ 8 + h3.toNat ∧
    h.channels = c ∧ h.colorspace = cs) ∧
  ∀ bs : List Byte, bs.length < 14 → parseHeader bs = .error .truncHeader

/-- 46_decode_loop.md section 2 (peek policy D6, marker not consumed D7; log entry 12). END completes, where
`CURSOR = TOTAL`, in `Done` with nothing else changed; from the marker's bytes a step does so. Where `CURSOR ≠ TOTAL` the
marker's first byte runs as INDEX 0 (log entry 9). -/
def Obligations.EndMarkerEndsTheCall : Prop :=
  ∀ s : State, s.fsm = .decodingOpcodes →
    (s.cursor = s.total →
      exec .endMarker s = .next { s with fsm := .done } ∧
      (s.memRead s.pc 8 = some [0, 0, 0, 0, 0, 0, 0, 1] → step s = .next { s with fsm := .done })) ∧
    (s.cursor ≠ s.total → exec .endMarker s = exec (.index 0) s)

/-! ## Frames -/

/-- What RGB, RGBA, INDEX, DIFF and LUMA leave unchanged where they complete (R68, R149): every cache slot but `Hash` of the
new `last`, the FSM, the four header registers, TOTAL, STATUS, the whole input, the capacity, and every output cell but the
one at the old CURSOR. -/
def Obligations.SinglePixelOpcodesChangeOnlyTheirOwn : Prop :=
  ∀ (i : Instr) (s t : State), i.isOpcode = true → (∀ n, i ≠ .run n) → exec i s = .next t → t.fsm ≠ .failed →
    (∀ h, h ≠ pixelHash t.last → t.slot h = s.slot h) ∧ t.fsm = s.fsm ∧ t.width = s.width ∧ t.height = s.height ∧
    t.channels = s.channels ∧ t.colorspace = s.colorspace ∧ t.total = s.total ∧ t.status = s.status ∧
    t.maxPixels = s.maxPixels ∧ (∀ a, Memory.read t.input a = Memory.read s.input a) ∧
    ∃ m m', s.pix = some m ∧ t.pix = some m' ∧ ∀ a, a ≠ s.cursor → Memory.read m' a = Memory.read m a

/-- What RUN leaves unchanged where it completes (R68, R190): `last`, every cache slot but `Hash(last)`, the FSM, the header
registers, TOTAL, STATUS, the input, the capacity, and every output cell outside `CURSOR .. CURSOR+count-1`. -/
def Obligations.RunChangesOnlyItsOwn : Prop :=
  ∀ (count : Nat) (s t : State), exec (.run count) s = .next t → t.fsm ≠ .failed →
    t.last = s.last ∧ (∀ h, h ≠ pixelHash s.last → t.slot h = s.slot h) ∧ t.fsm = s.fsm ∧ t.width = s.width ∧
    t.height = s.height ∧ t.channels = s.channels ∧ t.colorspace = s.colorspace ∧ t.total = s.total ∧
    t.status = s.status ∧ t.maxPixels = s.maxPixels ∧ (∀ a, Memory.read t.input a = Memory.read s.input a) ∧
    ∃ m m', s.pix = some m ∧ t.pix = some m' ∧
      ∀ a, ¬ (s.cursor ≤ a ∧ a < s.cursor + count) → Memory.read m' a = Memory.read m a

/-- What HEADER, the allocation step and END (on a full grid) leave unchanged where they complete (R68, R120, R125, R203):
the whole cache, `last`, CURSOR, STATUS, the input and the capacity; HEADER and END also TOTAL and PIX; the allocation step
and END also `pc` and the header registers. That END leaves `pc` (the marker is not consumed) is the spec's decision D7, a
DESIGN CHOICE (log entry 12), so the statement is derived. -/
def Obligations.HeaderAllocationAndEndTouchNoPixelState : Prop :=
  ∀ (s t : State) (h : Header),
    (exec (.header h) s = .next t ∨ s.allocate = .next t ∨ (exec .endMarker s = .next t ∧ s.cursor = s.total)) →
    t.fsm ≠ .failed →
    t.x = s.x ∧ t.last = s.last ∧ t.cursor = s.cursor ∧ t.status = s.status ∧ t.maxPixels = s.maxPixels ∧
    (∀ a, Memory.read t.input a = Memory.read s.input a) ∧
    (s.fsm ≠ .allocatingGrid → t.total = s.total ∧ t.pix = s.pix) ∧
    (s.fsm ≠ .readingHeader → t.pc = s.pc ∧ t.width = s.width ∧ t.height = s.height ∧ t.channels = s.channels ∧
      t.colorspace = s.colorspace)

/-- R225 (derived by the spec) with R224: a step that fails leaves the cache, `last`, CURSOR, the header registers, the input
and the capacity as the previous step left them, moves `pc` forward by at most 14, releases PIX, and records the category
of its detail. -/
def Obligations.FailuresArePrecise : Prop :=
  ∀ s t : State, step s = .next t → t.fsm = .failed →
    t.x = s.x ∧ t.last = s.last ∧ t.cursor = s.cursor ∧ t.width = s.width ∧ t.height = s.height ∧
    t.channels = s.channels ∧ t.colorspace = s.colorspace ∧ t.input = s.input ∧ t.maxPixels = s.maxPixels ∧
    s.pc ≤ t.pc ∧ t.pc ≤ s.pc + 14 ∧ t.pix = none ∧ t.status.category = t.status.detail.category ∧
    t.status.category ≠ .none

/-- 41_dispatch_and_emit.md section 3, lanes (derived by the spec): where an opcode completes, alpha is replaced whole by
RGBA, comes whole from the slot by INDEX, and is that of the old `last` after RGB, DIFF, LUMA and RUN. -/
def Obligations.AlphaIsReplacedOrCopiedWhole : Prop :=
  ∀ (i : Instr) (s t : State), i.isOpcode = true → exec i s = .next t → t.fsm ≠ .failed →
    (∀ r g b a, i = .rgba r g b a → t.last.a = a) ∧
    (∀ idx, i = .index idx → t.last.a = (s.slot idx).a) ∧
    ((∀ r g b a, i ≠ .rgba r g b a) → (∀ idx, i ≠ .index idx) → t.last.a = s.last.a)

/-! ## The step -/

/-- A step runs the decoded instruction, and adds nothing around it: in the state that reads the header, the 14 bytes at
`pc`; in the loop with pixels missing, the opcode at `pc`; in the loop with the grid full, END where the 8 bytes at `pc`
are the marker and the opcode where they are another 8 bytes (R120, R140, R201, R202). -/
def Obligations.StepRunsTheDecodedInstruction : Prop :=
  ∀ (s : State) (bs rest : List Byte) (n : Nat) (i : Instr), s.memRead s.pc n = some bs →
    (s.fsm = .readingHeader → decodeAt .header bs = .ok (i, rest) → step s = exec i s) ∧
    (s.fsm = .decodingOpcodes → s.cursor ≠ s.total → decodeAt .opcode bs = .ok (i, rest) → step s = exec i s) ∧
    (s.fsm = .decodingOpcodes → s.cursor = s.total → 8 ≤ n → decodeAt .markerDue bs = .ok (i, rest) →
      step s = exec i s)

/-- 46_decode_loop.md section 1, the transitions. Reset leads to ReadingHeader; a step leads from each state only to the
states of the table, and a failure is of the categories the table gives. The table gives `Done` and `Failed` no step: that
`step` answers the faults callDone and callFailed there is the model's own answer, DEDUCED (log entry 5), so the statement
is derived. -/
def Obligations.TransitionsFollowTheTable : Prop :=
  (∀ s t : State, step s = .next t →
    (s.fsm = .readingHeader ∧ (t.fsm = .allocatingGrid ∨
      (t.fsm = .failed ∧ (t.status.category = .truncated ∨ t.status.category = .invalid)))) ∨
    (s.fsm = .allocatingGrid ∧ (t.fsm = .decodingOpcodes ∨
      (t.fsm = .failed ∧ t.status.category = .allocationFailure))) ∨
    (s.fsm = .decodingOpcodes ∧ (t.fsm = .decodingOpcodes ∨ t.fsm = .done ∨
      (t.fsm = .failed ∧ (t.status.category = .truncated ∨ t.status.category = .invalid))))) ∧
  (∀ s : State, s.fsm = .done → step s = .fault .callDone) ∧
  (∀ s : State, s.fsm = .failed → step s = .fault .callFailed) ∧
  (∀ (s : State) (bytes : List Byte) (cap : Nat), (s.hostReset bytes cap).fsm = .readingHeader)

/-- 60_exceptions.md section 1, the table of what each step can raise (derived by the spec; the detail codes are its decision
D2): which details the header step, the allocation step and each instruction can fail with, and that BAD_OPCODE is never
raised (D17). -/
def Obligations.EachStepRaisesOnlyItsOwnDetails : Prop :=
  (∀ s t : State, step s = .next t → t.fsm = .failed →
    (s.fsm = .readingHeader → t.status.detail = .truncHeader ∨ t.status.detail = .hdrMagic ∨
      t.status.detail = .hdrChannels ∨ t.status.detail = .hdrColorspace) ∧
    (s.fsm = .allocatingGrid → t.status.detail = .alloc) ∧
    (s.fsm = .decodingOpcodes → t.status.detail = .truncEndmark ∨ t.status.detail = .truncOpcode ∨
      t.status.detail = .truncOperand ∨ t.status.detail = .pixelOverflow ∨ t.status.detail = .runOverflow)) ∧
  (∀ (i : Instr) (s t : State), exec i s = .next t → t.fsm = .failed →
    (i.isOpcode = true → (∀ n, i ≠ .run n) → t.status.detail = .pixelOverflow) ∧
    (∀ n, i = .run n → t.status.detail = .runOverflow))

/-- R205: a missing byte is a failure at every required read. With `CURSOR = TOTAL` and fewer than 8 bytes, TRUNC_ENDMARK;
with `CURSOR < TOTAL` and no byte, TRUNC_OPCODE; with a control byte and too few operand bytes, TRUNC_OPERAND; with fewer
than 14 bytes for the header, TRUNC_HEADER. -/
def Obligations.ShortReadsFailAsTruncated : Prop :=
  ∀ s : State,
    (s.fsm = .readingHeader → s.memRead s.pc 14 = none →
      step s = .next (afterFailure s 0 .truncated .truncHeader)) ∧
    (s.fsm = .decodingOpcodes → s.cursor = s.total → s.memRead s.pc 8 = none →
      step s = .next (afterFailure s 0 .truncated .truncEndmark)) ∧
    (s.fsm = .decodingOpcodes → s.cursor < s.total → s.memRead s.pc 1 = none →
      step s = .next (afterFailure s 0 .truncated .truncOpcode)) ∧
    (∀ c, s.fsm = .decodingOpcodes → s.cursor < s.total → s.memRead s.pc 1 = some [c] →
      s.memRead (s.pc + 1) (operandCount c) = none →
      step s = .next (afterFailure s 1 .truncated .truncOperand))

/-- R142: a missing operand byte is reported before an overflow would be. At the fetch of dispatch, whatever CURSOR is, a
control byte with too few operand bytes raises TRUNC_OPERAND with `pc` past the control byte; and an opcode fetched whole
on a full grid fails with an overflow only when it runs. -/
def Obligations.MissingOperandsComeBeforeOverflow : Prop :=
  ∀ (s : State) (c : Byte), s.memRead s.pc 1 = some [c] →
    (s.memRead (s.pc + 1) (operandCount c) = none →
      s.fetchOpcode = .raised { s with pc := s.pc + 1 } .truncOperand) ∧
    (∀ os, s.memRead (s.pc + 1) (operandCount c) = some os →
      ∃ i, s.fetchOpcode = .instr i ∧ i.isOpcode = true ∧ i.wf = true ∧
        (s.fsm = .decodingOpcodes → s.total ≤ s.cursor →
          ∃ d, exec i s = .next (afterFailure s i.length .invalid d) ∧ (d = .pixelOverflow ∨ d = .runOverflow)))

/-- 40_header.md section 2 (failure condition D8, exact product D15; log entry 4). The allocation step: TOTAL becomes the
exact product; where it fits the capacity PIX is created with every cell unwritten and the loop begins; where not, the call
fails with AllocationFailure. A zero width or height always fits (D5). -/
def Obligations.AllocationTakesTheExactProduct : Prop :=
  ∀ s : State, s.fsm = .allocatingGrid →
    (s.width.toNat * s.height.toNat ≤ s.maxPixels →
      step s = .next
        { s with total := s.width.toNat * s.height.toNat, pix := some [], fsm := .decodingOpcodes }) ∧
    (s.maxPixels < s.width.toNat * s.height.toNat →
      step s = .next
        (afterFailure { s with total := s.width.toNat * s.height.toNat } 0 .allocationFailure .alloc)) ∧
    (s.width = 0 ∨ s.height = 0 → step s = .next { s with total := 0, pix := some [], fsm := .decodingOpcodes })

/-- R204: with the pixel count satisfied and 8 bytes present that are not the marker, the step dispatches the opcode they
begin with, and it fails with `Invalid`: RUN_OVERFLOW for a RUN byte (0xC0..0xFD), PIXEL_OVERFLOW for any other. No
`Truncated` can intervene. -/
def Obligations.WrongEndMarkerFailsInvalid : Prop :=
  ∀ (s : State) (c : Byte) (cs : List Byte), s.fsm = .decodingOpcodes → s.cursor = s.total →
    s.memRead s.pc 8 = some (c :: cs) → c :: cs ≠ [0, 0, 0, 0, 0, 0, 0, 1] →
    ∃ (i : Instr) (rest : List Byte), decodeOpcode (c :: cs) = .ok (i, rest) ∧ step s = exec i s ∧
      step s = .next (afterFailure s i.length .invalid
        (if 0xC0 ≤ c.toNat ∧ c.toNat ≤ 0xFD then .runOverflow else .pixelOverflow))

/-- 30_encoding.md section 7 (derived by the spec): while pixels are missing the marker's bytes run as seven INDEX 0 and one
INDEX 1. -/
def Obligations.MarkerBytesRunAsIndexWhilePixelsMissing : Prop :=
  ∀ (s : State) (k : Nat), s.fsm = .decodingOpcodes → s.cursor < s.total → k < 8 → k ≤ s.pc →
    s.memRead (s.pc - k) 8 = some [0, 0, 0, 0, 0, 0, 0, 1] →
    step s = exec (.index (if k = 7 then 1 else 0)) s

/-! ## Registers along a run -/

/-- R29: CURSOR is 0 after reset, changes only by `+1` in the single-pixel opcodes and by `+count` in RUN (so every opcode
that completes raises it), no step decreases it, and once it is at most TOTAL in the loop it stays so. -/
def Obligations.CursorCountsEmittedPixels : Prop :=
  (∀ (s : State) (bytes : List Byte) (cap : Nat), (s.hostReset bytes cap).cursor = 0) ∧
  (∀ (i : Instr) (s t : State), i.isOpcode = true → exec i s = .next t → t.fsm ≠ .failed →
    t.cursor = s.cursor + pixelCount i ∧ (i.wf = true → s.cursor < t.cursor)) ∧
  (∀ s t : State, step s = .next t →
    s.cursor ≤ t.cursor ∧ (s.cursor ≠ t.cursor → s.fsm = .decodingOpcodes ∧ t.fsm = .decodingOpcodes)) ∧
  (∀ s t : State, step s = .next t → s.fsm = .decodingOpcodes → s.cursor ≤ s.total → t.cursor ≤ t.total)

/-- R207: `pc` only moves forward, by the length of what was fetched, and the next opcode is the byte after the current one:
an opcode or header that runs moves it by its length, whatever the operands, so no operand is an address. -/
def Obligations.PcMovesByTheInstructionLength : Prop :=
  (∀ (i : Instr) (s t : State), i ≠ .endMarker → exec i s = .next t → t.pc = s.pc + i.length) ∧
  (∀ s t : State, step s = .next t → s.pc ≤ t.pc)

/-- R36: the core never writes the input, nor the capacity: no instruction and no step does. -/
def Obligations.ParametersAreNeverWritten : Prop :=
  (∀ (i : Instr) (s t : State), exec i s = .next t → t.input = s.input ∧ t.maxPixels = s.maxPixels) ∧
  ∀ s t : State, step s = .next t → t.input = s.input ∧ t.maxPixels = s.maxPixels

/-- R27: the header registers are written by the header step where it succeeds, from the header's fields, and by no other
step; once the check has passed CHANNELS is 3 or 4 and COLORSPACE 0 or 1. -/
def Obligations.HeaderRegistersAreWrittenOnce : Prop :=
  (∀ s t : State, step s = .next t → ¬ (s.fsm = .readingHeader ∧ t.fsm = .allocatingGrid) →
    t.width = s.width ∧ t.height = s.height ∧ t.channels = s.channels ∧ t.colorspace = s.colorspace) ∧
  (∀ s t : State, step s = .next t → s.fsm = .readingHeader → t.fsm = .allocatingGrid →
    ∃ h bs, s.memRead s.pc 14 = some bs ∧ parseHeader bs = .ok (.header h, []) ∧ h.isValid = true ∧
      t.width = h.width ∧ t.height = h.height ∧ t.channels = h.channels ∧ t.colorspace = h.colorspace ∧
      (t.channels = 3 ∨ t.channels = 4) ∧ (t.colorspace = 0 ∨ t.colorspace = 1))

/-! ## Invariants -/

/-- R20: 64 slots, each (0,0,0,255) after reset, with no aliases: a write reaches one slot. -/
def Obligations.CacheResetsToOpaqueBlackWithoutAliases : Prop :=
  (∀ i : Fin 64, State.reset.slot i = ⟨0, 0, 0, 255⟩) ∧
  ∀ (s : State) (p : Pixel) (i : Fin 64), i ≠ pixelHash p → (s.cachePixel p).slot i = s.slot i

/-- 10_state.md section 8 and 70_reset_and_hazards.md section 1 (decisions D2, D3, D14): whatever the state, reset gives
every piece of state the value of the table, keeps nothing, and takes the host's input and capacity. `last` is decision D3
(log entry 2); the header registers and TOTAL are not mentioned, since they hold no value (log entry 3). -/
def Obligations.HostResetGivesTheResetState : Prop :=
  ∀ (s : State) (bytes : List Byte) (cap : Nat),
    let t := s.hostReset bytes cap
    (∀ i, t.slot i = ⟨0, 0, 0, 255⟩) ∧ t.last = ⟨0, 0, 0, 255⟩ ∧ t.pc = 0 ∧ t.fsm = .readingHeader ∧ t.cursor = 0 ∧
    t.status = ⟨.none, .none⟩ ∧ t.pix = none ∧ t.len = bytes.length ∧ Memory.contiguous t.input ∧
    (∀ a, Memory.read t.input a = bytes[a]?) ∧ t.maxPixels = cap

/-- The invariant of a call holds after every reset, whatever the input and the capacity. It rests on `last` resetting to the
cache's reset pixel (decision D3, log entry 2) and on TOTAL's zero (log entry 3). -/
def Obligations.InvariantHoldsAfterReset : Prop :=
  Inv State.reset ∧ ∀ (s : State) (bytes : List Byte) (cap : Nat), Inv (s.hostReset bytes cap)

/-- 10_state.md sections 1, 4 and 7: every step keeps the invariant of a call. Among its parts: every cache slot holds the
pixel most recently emitted with that hash or its reset content (R22 as corrected by C4), cells are written in rising order
and exactly below CURSOR, `CURSOR <= TOTAL`, `last` is the newest cell and is cached (R37). Parts of it are derived by the
spec. Two parts rest on choices: from the loop on `TOTAL <= MAX_PIXELS` (40_header.md section 2; decision D8, log entry 4),
and PIX is `none` in `Failed` (60_exceptions.md section 3; decision D11, log entry 15). -/
def Obligations.StepKeepsTheCallInvariant : Prop :=
  ∀ s t : State, Inv s → step s = .next t → Inv t

/-- The memories stay in canonical form: from every state whose memories are, by every step; and reset's are. -/
def Obligations.StepKeepsMemoriesCanonical : Prop :=
  (∀ s t : State, MemoryCanonical s → step s = .next t → MemoryCanonical t) ∧ MemoryCanonical State.reset

/-- R31: in `Done` the host has the Image, with exactly WIDTH x HEIGHT pixels, the cells of PIX in index order; in no other
state is there one. -/
def Obligations.DoneHasACompleteImage : Prop :=
  (∀ s : State, Inv s → s.fsm = .done → ∃ ps : List Pixel,
    s.image = some ⟨s.width, s.height, s.channels, s.colorspace, ps⟩ ∧
    ps.length = s.width.toNat * s.height.toNat ∧
    ∀ k < ps.length, ∃ m, s.pix = some m ∧ Memory.read m k = ps[k]?) ∧
  ∀ s : State, s.fsm ≠ .done → s.image = none

/-- 45_run_op.md, corner case (e) (derived by the spec from the invariant): RUN's cache write never changes the cache. -/
def Obligations.RunNeverChangesTheCache : Prop :=
  ∀ (count : Nat) (s t : State), Inv s → exec (.run count) s = .next t → t.x = s.x

/-- 43_index_op.md, corner cases (a), (b) and (d): a slot written since reset is rewritten with what it holds, so the cache
does not change; a slot never written emits (0,0,0,255) and the update goes to slot 53, not to the slot named. -/
def Obligations.IndexOfAnUnwrittenSlotEvicts53 : Prop :=
  ∀ (idx : Fin 64) (s t : State) (ps : List Pixel), s.fsm = .decodingOpcodes → Holds s ps →
    exec (.index idx) s = .next t → t.fsm ≠ .failed →
    ((∃ p ∈ ps, pixelHash p = idx) → t.x = s.x) ∧
    ((∀ p ∈ ps, pixelHash p ≠ idx) → t.last = ⟨0, 0, 0, 255⟩ ∧ t.slot 53 = ⟨0, 0, 0, 255⟩ ∧
      ∀ h, h ≠ 53 → t.slot h = s.slot h)

/-! ## Whole-machine claims -/

/-- Conflict C2 and 70_reset_and_hazards.md section 3 (d): a RUN that fits has the same effect as that many single emits of
`last`, one cache write or many. -/
def Obligations.RunEqualsRepeatedEmits : Prop :=
  ∀ (n : Nat) (s : State), 1 ≤ n → s.cursor + n ≤ s.total →
    s.emitRun n =
      (List.replicate n s.last).foldl
        (fun (o : Outcome) p => match o with | .next t => t.emit p | r => r) (.next s)

/-- 40_header.md section 2 (decision D9, conflict C5): CHANNELS and COLORSPACE have no effect but being stored. Two runs that
differ only in them take the same steps, after the header is read. -/
def Obligations.ChannelsAndColorspaceDoNotInterfere : Prop :=
  ∀ (s : State) (c cs : Byte), s.fsm ≠ .readingHeader →
    step { s with channels := c, colorspace := cs } =
      (match step s with
       | .next t => .next { t with channels := c, colorspace := cs }
       | .fault f => .fault f
       | .refused r => .refused r)

/-- An opcode that completes in a state that holds the pixels `ps` leaves one that holds `ps` and then the pixels the opcode
stands for, told without a cache (R22, R149, R190, R210). -/
def Obligations.OpcodeAppendsItsPixels : Prop :=
  ∀ (i : Instr) (s t : State) (ps : List Pixel), i.isOpcode = true → Holds s ps → exec i s = .next t →
    t.fsm ≠ .failed → Holds t (ps ++ emitted ps i)

/-- R210, for every input of the form of R90: a valid header, well-formed opcodes whose pixels fill the grid exactly, the
marker, and any bytes after it. The call ends in `Done` and the host receives the header's fields and the pixels of the
opcodes in stream order. Rests on decisions D3, D4, D5, D7, D8 where the stream uses them. -/
def Obligations.WellFormedStreamDecodesToItsPixels : Prop :=
  ∀ (h : Header) (is : List Instr) (trailing : List Byte) (cap : Nat) (s : State),
    h.isValid = true → (∀ i ∈ is, i.isOpcode = true ∧ i.wf = true) →
    (pixelsOf is).length = h.width.toNat * h.height.toNat → (pixelsOf is).length ≤ cap →
    ∃ (k : Nat) (t : State),
      core.run k (s.hostReset (streamOf h is ++ trailing) cap) = .next t ∧ t.fsm = .done ∧
      t.status = ⟨.none, .none⟩ ∧
      t.image = some ⟨h.width, h.height, h.channels, h.colorspace, pixelsOf is⟩

/-- 46_decode_loop.md section 3, policy independence (derived by the spec): the core and the one that peeks 8 bytes at every
iteration reach `Done` together, in the same state. -/
def Obligations.PeekPolicyCannotChangeASuccess : Prop :=
  ∀ s t : State, t.fsm = .done →
    ((∃ k, core.run k s = .next t) ↔ (∃ k, corePeekAlways.run k s = .next t))

/-- 46_decode_loop.md section 3, termination (derived by the spec): from every state of the loop whose grid exists and is not
overfull, the call ends, within one step more than the pixels missing and the bytes left. -/
def Obligations.DecodeLoopEnds : Prop :=
  ∀ s : State, s.fsm = .decodingOpcodes → s.pix ≠ none → s.cursor ≤ s.total → Memory.contiguous s.input →
    ∃ (k : Nat) (t : State), k ≤ min (s.total - s.cursor) (s.len - s.pc) + 1 ∧ core.run k s = .next t ∧ terminal t

/-- 46_decode_loop.md section 3, termination (derived by the spec): every decode call ends, on every input and capacity,
within `min(LEN, TOTAL) + 3` steps. -/
def Obligations.EveryDecodeCallEnds : Prop :=
  ∀ (s : State) (bytes : List Byte) (cap : Nat), ∃ (k : Nat) (t : State),
    k ≤ min bytes.length t.total + 3 ∧ core.run k (s.hostReset bytes cap) = .next t ∧ terminal t

/-! ## The host -/

/-- 10_state.md section 4, register numbers (decision D21): FSM and STATUS read their codes always, the header registers and
TOTAL their values in `Done`; whatever is read, defined or a free value, fits the register's width. -/
def Obligations.HostReadsFitTheirRegisters : Prop :=
  (∀ (s : State) (r : HostReg) (draw : Nat), s.fsm = .done ∨ r.number ≤ 2 → s.hostRead r draw = r.value s) ∧
  ∀ (s : State) (r : HostReg) (draw : Nat), Inv s → s.hostRead r draw < 2 ^ r.bits

/-- 20_memory.md sections 2 and 4 (decision D10, log entry 11): a pixel is read back from its packed word, whose bits 31:24,
23:16, 15:8, 7:0 are r, g, b, a; and the grid position of a cell gives back the cell. -/
def Obligations.PixelLayoutsRoundTrip : Prop :=
  (∀ p : Pixel, unpackPixel (packPixel p) = p ∧ (packPixel p).extractLsb' 24 8 = p.r ∧
    (packPixel p).extractLsb' 16 8 = p.g ∧ (packPixel p).extractLsb' 8 8 = p.b ∧
    (packPixel p).extractLsb' 0 8 = p.a ∧ pixelBytes p = be32Bytes (packPixel p)) ∧
  ∀ (width k : Nat), 0 < width →
    gridIndex width (gridPosition width k).1 (gridPosition width k).2 = k ∧ (gridPosition width k).1 < width
end

