-- ==== Sys2Proof/Laws/Decode.lean ====
section
/-! SUPPORT. The small lemmas of the decoder and the encoder: bit fields as arithmetic, big-endian words, what the end
marker's comparison says. -/

namespace Sys2Proof

/-- A bit field is below its size. -/
theorem bits_lt (b : Byte) (hi lo : Nat) : bits b hi lo < 2 ^ (hi + 1 - lo) :=
  Nat.mod_lt _ (Nat.two_pow_pos _)

/-! The seven fields of rules R96 to R99, as division and remainder. -/

theorem bits_7_6 (b : Byte) : bits b 7 6 = b.toNat / 64 := by
  have := b.isLt; simp only [bits]; omega
theorem bits_5_0 (b : Byte) : bits b 5 0 = b.toNat % 64 := by simp only [bits]; omega
theorem bits_5_4 (b : Byte) : bits b 5 4 = b.toNat / 16 % 4 := by simp only [bits]; omega
theorem bits_3_2 (b : Byte) : bits b 3 2 = b.toNat / 4 % 4 := by simp only [bits]; omega
theorem bits_1_0 (b : Byte) : bits b 1 0 = b.toNat % 4 := by simp only [bits]; omega
theorem bits_7_4 (b : Byte) : bits b 7 4 = b.toNat / 16 := by
  have := b.isLt; simp only [bits]; omega
theorem bits_3_0 (b : Byte) : bits b 3 0 = b.toNat % 16 := by simp only [bits]; omega

/-- `be32` is the integer of rule R9. -/
theorem be32_toNat (b0 b1 b2 b3 : Byte) :
    (be32 b0 b1 b2 b3).toNat = b0.toNat * 2 ^ 24 + b1.toNat * 2 ^ 16 + b2.toNat * 2 ^ 8 + b3.toNat := by
  have h0 := b0.isLt; have h1 := b1.isLt; have h2 := b2.isLt; have h3 := b3.isLt
  have e (n : Nat) (b : Byte) : n <<< 8 ||| b.toNat = n * 256 + b.toNat := by
    rw [← Nat.shiftLeft_add_eq_or_of_lt b.isLt, Nat.shiftLeft_eq]
  simp only [be32, BitVec.toNat_append, e]
  omega

/-- The bytes of a word put together again are the word. -/
theorem be32_bytes (w : BitVec 32) :
    be32 (w.extractLsb' 24 8) (w.extractLsb' 16 8) (w.extractLsb' 8 8) (w.extractLsb' 0 8) = w := by
  apply BitVec.eq_of_toNat_eq
  rw [be32_toNat]
  have := w.isLt
  simp only [BitVec.extractLsb'_toNat, Nat.shiftRight_eq_div_pow]
  omega

/-- The marker of rule R108 has eight bytes. -/
@[simp] theorem endMarker_length : Config.endMarker.length = 8 := rfl

/-- What the comparison of rule R202 answers. -/
theorem matchEndMarker_eight {m : List Byte} (h : m.length = 8) :
    matchEndMarker m = if m = Config.endMarker then .ok (.endMarker, []) else .error .notEndMarker := by
  unfold matchEndMarker
  rw [if_neg (by omega), List.take_of_length_le (by omega), List.drop_eq_nil_of_le (by omega)]

end Sys2Proof
end

