-- ==== Sys2Proof/Laws/Memory.lean ====
section
/-! SUPPORT. The laws of the sparse memories: read after write, the canonical form kept by every operation, ranges and
lists. -/

namespace Sys2Proof.Machine

variable {α : Type}

/-- Read after write: the written cell, and every other cell as before. Holds for any memory. -/
theorem Memory.read_write (m : Memory α) (k a : Nat) (v : α) :
    Memory.read (Memory.write m k v) a = if a = k then some v else Memory.read m a := by
  induction m with
  | nil => simp [Memory.read, Memory.write]
  | cons c t ih =>
    obtain ⟨b, w⟩ := c
    simp only [Memory.write]
    split
    · simp [Memory.read]
    · split
      · rename_i _ h; subst h
        by_cases h : a = k <;> simp [Memory.read, h]
      · rename_i h1 h2
        simp only [Memory.read, ih]
        by_cases h : a = b
        · simp [h, Ne.symm h2]
        · simp [h]

/-- Every address of a written memory is the written one or was listed before. -/
theorem Memory.mem_write {m : Memory α} {k : Nat} {v : α} {c : Nat × α} (h : c ∈ Memory.write m k v) :
    c = (k, v) ∨ c ∈ m := by
  induction m with
  | nil => simpa [Memory.write] using h
  | cons d t ih =>
    obtain ⟨b, w⟩ := d
    simp only [Memory.write] at h
    split at h
    · simpa using h
    · split at h
      · rcases List.mem_cons.1 h with h | h
        · exact .inl h
        · exact .inr (List.mem_cons_of_mem _ h)
      · rcases List.mem_cons.1 h with h | h
        · exact .inr (by simp [h])
        · rcases ih h with h | h
          · exact .inl h
          · exact .inr (List.mem_cons_of_mem _ h)

/-- A write keeps the canonical form. -/
theorem Memory.wf_write {m : Memory α} (h : Memory.wf m) (k : Nat) (v : α) : Memory.wf (Memory.write m k v) := by
  induction m with
  | nil => simp [Memory.write, Memory.wf]
  | cons d t ih =>
    obtain ⟨b, w⟩ := d
    obtain ⟨hb, ht⟩ := List.pairwise_cons.1 h
    simp only [Memory.write]
    split
    · rename_i hk
      refine List.pairwise_cons.2 ⟨fun c hc => ?_, h⟩
      rcases List.mem_cons.1 hc with rfl | hc
      · exact hk
      · exact Nat.lt_trans hk (hb c hc)
    · split
      · rename_i _ hk; subst hk
        exact List.pairwise_cons.2 ⟨hb, ht⟩
      · rename_i h1 h2
        refine List.pairwise_cons.2 ⟨fun c hc => ?_, ih ht⟩
        rcases Memory.mem_write hc with rfl | hc
        · show b < k; omega
        · exact hb c hc

/-- A run of writes keeps the canonical form. -/
theorem Memory.wf_writeRun {m : Memory α} (h : Memory.wf m) (v : α) (k n : Nat) :
    Memory.wf (Memory.writeRun m v k n) := by
  induction n generalizing m k with
  | zero => exact h
  | succ n ih => exact ih (Memory.wf_write h k v) (k + 1)

/-- A list of writes keeps the canonical form. -/
theorem Memory.wf_writeList {m : Memory α} (h : Memory.wf m) (k : Nat) (vs : List α) :
    Memory.wf (Memory.writeList m k vs) := by
  induction vs generalizing m k with
  | nil => exact h
  | cons v vs ih => exact ih (Memory.wf_write h k v) (k + 1)

/-- Read after a run of writes: the value in the run's cells, every other cell as before. -/
theorem Memory.read_writeRun (m : Memory α) (v : α) (k n a : Nat) :
    Memory.read (Memory.writeRun m v k n) a = if k ≤ a ∧ a < k + n then some v else Memory.read m a := by
  induction n generalizing m k with
  | zero =>
    have : ¬ (k ≤ a ∧ a < k + 0) := by omega
    rw [if_neg this]; rfl
  | succ n ih =>
    rw [Memory.writeRun, ih, Memory.read_write]
    by_cases h : a = k
    · have h1 : ¬ (k + 1 ≤ a ∧ a < k + 1 + n) := by omega
      have h2 : k ≤ a ∧ a < k + (n + 1) := by omega
      rw [if_neg h1, if_pos h, if_pos h2]
    · rw [if_neg h]
      by_cases h1 : k + 1 ≤ a ∧ a < k + 1 + n
      · have h2 : k ≤ a ∧ a < k + (n + 1) := by omega
        rw [if_pos h1, if_pos h2]
      · have h2 : ¬ (k ≤ a ∧ a < k + (n + 1)) := by omega
        rw [if_neg h1, if_neg h2]

/-- One write is a run of length one. -/
@[simp] theorem Memory.writeRun_one (m : Memory α) (v : α) (k : Nat) :
    Memory.writeRun m v k 1 = Memory.write m k v := rfl

/-- The cells of the memory that holds a list. -/
theorem Memory.read_ofList (k a : Nat) (vs : List α) :
    Memory.read (Memory.ofList k vs) a = if k ≤ a then vs[a - k]? else none := by
  induction vs generalizing k with
  | nil => simp [Memory.ofList, Memory.read]
  | cons v vs ih =>
    simp only [Memory.ofList, Memory.read, ih]
    by_cases h : a = k
    · subst h; simp
    · rw [if_neg h]
      by_cases h1 : k ≤ a
      · have h2 : k + 1 ≤ a := by omega
        obtain ⟨j, rfl⟩ : ∃ j, a = k + 1 + j := ⟨a - (k + 1), by omega⟩
        rw [if_pos h2, if_pos h1]
        have e1 : k + 1 + j - (k + 1) = j := by omega
        have e2 : k + 1 + j - k = j + 1 := by omega
        rw [e1, e2, List.getElem?_cons_succ]
      · have h2 : ¬ k + 1 ≤ a := by omega
        rw [if_neg h2, if_neg h1]

/-- Writing just past a list's memory appends to the list. -/
theorem Memory.write_ofList (k : Nat) (vs : List α) (v : α) :
    Memory.write (Memory.ofList k vs) (k + vs.length) v = Memory.ofList k (vs ++ [v]) := by
  induction vs generalizing k with
  | nil => simp [Memory.ofList, Memory.write]
  | cons w vs ih =>
    simp only [Memory.ofList, Memory.write, List.length_cons, List.cons_append]
    have h1 : ¬ k + (vs.length + 1) < k := by omega
    have h2 : k + (vs.length + 1) ≠ k := by omega
    rw [if_neg h1, if_neg h2, show k + (vs.length + 1) = k + 1 + vs.length by omega, ih]

/-- A run written just past a list's memory appends the copies. -/
theorem Memory.writeRun_ofList (k : Nat) (vs : List α) (v : α) (n : Nat) :
    Memory.writeRun (Memory.ofList k vs) v (k + vs.length) n = Memory.ofList k (vs ++ List.replicate n v) := by
  induction n generalizing vs with
  | zero => simp [Memory.writeRun]
  | succ n ih =>
    rw [Memory.writeRun, Memory.write_ofList]
    have h := ih (vs ++ [v])
    rw [List.length_append, List.length_singleton, ← Nat.add_assoc] at h
    rw [h, List.append_assoc, List.replicate_succ, List.singleton_append]

/-- The addresses of a list's memory. -/
theorem Memory.keys_ofList (k : Nat) (vs : List α) :
    (Memory.ofList k vs).map Prod.fst = List.range' k vs.length := by
  induction vs generalizing k with
  | nil => rfl
  | cons v vs ih => simp [Memory.ofList, ih, List.range'_succ]

@[simp] theorem Memory.length_ofList (k : Nat) (vs : List α) : (Memory.ofList k vs).length = vs.length := by
  induction vs generalizing k with
  | nil => rfl
  | cons v vs ih => simp [Memory.ofList, ih]

/-- A list's memory from address 0 on is contiguous. -/
theorem Memory.contiguous_ofList (vs : List α) : Memory.contiguous (Memory.ofList 0 vs) := by
  simp [Memory.contiguous, Memory.keys_ofList, List.range_eq_range']

/-- A memory whose addresses are those below its size is in canonical form. -/
theorem Memory.wf_of_contiguous {m : Memory α} (h : Memory.contiguous m) : Memory.wf m := by
  have h' : (m.map Prod.fst).Pairwise (· < ·) := by rw [h]; exact List.pairwise_lt_range
  simpa [Memory.wf, List.pairwise_map] using h'

/-- A list's memory is in canonical form. -/
theorem Memory.wf_ofList (k : Nat) (vs : List α) : Memory.wf (Memory.ofList k vs) := by
  have h' : ((Memory.ofList k vs).map Prod.fst).Pairwise (· < ·) := by
    rw [Memory.keys_ofList]; exact List.pairwise_lt_range'
  simpa [Memory.wf, List.pairwise_map] using h'

/-! ## Ranges -/

@[simp] theorem Memory.readRange_zero (m : Memory α) (a : Nat) : Memory.readRange m a 0 = some [] := rfl

/-- What a successful read of a range says: its length, and each cell. -/
theorem Memory.readRange_some {m : Memory α} {a n : Nat} {vs : List α} (h : Memory.readRange m a n = some vs) :
    vs.length = n ∧ ∀ k < n, Memory.read m (a + k) = vs[k]? := by
  induction n generalizing a vs with
  | zero => cases h; simp
  | succ n ih =>
    simp only [Memory.readRange] at h
    split at h
    · rename_i v ws hv hw
      cases h
      obtain ⟨hl, hc⟩ := ih hw
      refine ⟨by simp [hl], fun k hk => ?_⟩
      cases k with
      | zero => simpa using hv
      | succ k => rw [show a + (k + 1) = a + 1 + k by omega, hc k (by omega)]; simp
    · cases h

/-- A range is read whenever each of its cells is there. -/
theorem Memory.readRange_eq {m : Memory α} {a : Nat} {vs : List α}
    (h : ∀ k < vs.length, Memory.read m (a + k) = vs[k]?) : Memory.readRange m a vs.length = some vs := by
  induction vs generalizing a with
  | nil => rfl
  | cons v vs ih =>
    have h0 : Memory.read m a = some v := by simpa using h 0 (by simp)
    have ht : Memory.readRange m (a + 1) vs.length = some vs := by
      refine ih (fun k hk => ?_)
      have := h (k + 1) (by simpa using hk)
      rw [show a + 1 + k = a + (k + 1) by omega, this]; simp
    simp [Memory.readRange, h0, ht]

/-- Two adjacent ranges are one. -/
theorem Memory.readRange_append {m : Memory α} {a n k : Nat} {vs ws : List α}
    (h1 : Memory.readRange m a n = some vs) (h2 : Memory.readRange m (a + n) k = some ws) :
    Memory.readRange m a (n + k) = some (vs ++ ws) := by
  obtain ⟨l1, c1⟩ := Memory.readRange_some h1
  obtain ⟨l2, c2⟩ := Memory.readRange_some h2
  have := Memory.readRange_eq (m := m) (a := a) (vs := vs ++ ws) (fun i hi => ?_)
  · rwa [List.length_append, l1, l2] at this
  · by_cases h : i < n
    · rw [c1 i h, List.getElem?_append_left (by omega)]
    · obtain ⟨j, rfl⟩ : ∃ j, i = n + j := ⟨i - n, by omega⟩
      rw [show a + (n + j) = a + n + j by omega, c2 j (by simp [l1, l2] at hi; omega),
        List.getElem?_append_right (by omega)]
      congr 1; omega

/-- A range splits at any point. -/
theorem Memory.readRange_split {m : Memory α} {a n k : Nat} {vs : List α}
    (h : Memory.readRange m a (n + k) = some vs) :
    Memory.readRange m a n = some (vs.take n) ∧ Memory.readRange m (a + n) k = some (vs.drop n) := by
  obtain ⟨l, c⟩ := Memory.readRange_some h
  constructor
  · have := Memory.readRange_eq (m := m) (a := a) (vs := vs.take n) (fun i hi => ?_)
    · rwa [show (vs.take n).length = n by simp; omega] at this
    · have hi' : i < n := by simp at hi; omega
      rw [c i (by omega), List.getElem?_take_of_lt hi']
  · have := Memory.readRange_eq (m := m) (a := a + n) (vs := vs.drop n) (fun i hi => ?_)
    · rwa [show (vs.drop n).length = k by simp; omega] at this
    · have hi' : i < k := by simp at hi; omega
      rw [show a + n + i = a + (n + i) by omega, c (n + i) (by omega), List.getElem?_drop]

/-- Reading the whole of a list's memory gives the list. -/
theorem Memory.readRange_ofList (vs : List α) : Memory.readRange (Memory.ofList 0 vs) 0 vs.length = some vs :=
  Memory.readRange_eq (fun k _ => by rw [Memory.read_ofList]; simp)

/-- A range of a list's memory is a piece of the list. -/
theorem Memory.readRange_ofList_slice (us vs ws : List α) :
    Memory.readRange (Memory.ofList 0 (us ++ vs ++ ws)) us.length vs.length = some vs := by
  refine Memory.readRange_eq (fun k hk => ?_)
  rw [Memory.read_ofList, if_pos (Nat.zero_le _), Nat.sub_zero, List.append_assoc,
    List.getElem?_append_right (by omega), Nat.add_sub_cancel_left, List.getElem?_append_left hk]

end Sys2Proof.Machine
end

