-- ==== Sys2Proof/Laws/State.lean ====
section
/-! SUPPORT. One lemma per field per update of State, so that no later proof unfolds a record update. -/

namespace Sys2Proof.Machine

@[simp] theorem State.advance_x (n : Nat) (s : State) : (s.advance n).x = s.x := rfl
@[simp] theorem State.advance_last (n : Nat) (s : State) : (s.advance n).last = s.last := rfl
@[simp] theorem State.advance_pc (n : Nat) (s : State) : (s.advance n).pc = s.pc + n := rfl
@[simp] theorem State.advance_fsm (n : Nat) (s : State) : (s.advance n).fsm = s.fsm := rfl
@[simp] theorem State.advance_width (n : Nat) (s : State) : (s.advance n).width = s.width := rfl
@[simp] theorem State.advance_height (n : Nat) (s : State) : (s.advance n).height = s.height := rfl
@[simp] theorem State.advance_channels (n : Nat) (s : State) : (s.advance n).channels = s.channels := rfl
@[simp] theorem State.advance_colorspace (n : Nat) (s : State) : (s.advance n).colorspace = s.colorspace := rfl
@[simp] theorem State.advance_total (n : Nat) (s : State) : (s.advance n).total = s.total := rfl
@[simp] theorem State.advance_cursor (n : Nat) (s : State) : (s.advance n).cursor = s.cursor := rfl
@[simp] theorem State.advance_status (n : Nat) (s : State) : (s.advance n).status = s.status := rfl
@[simp] theorem State.advance_pix (n : Nat) (s : State) : (s.advance n).pix = s.pix := rfl
@[simp] theorem State.advance_input (n : Nat) (s : State) : (s.advance n).input = s.input := rfl
@[simp] theorem State.advance_maxPixels (n : Nat) (s : State) : (s.advance n).maxPixels = s.maxPixels := rfl

@[simp] theorem State.cachePixel_x (p : Pixel) (s : State) : (s.cachePixel p).x = s.x.set (pixelHash p) p := rfl
@[simp] theorem State.cachePixel_last (p : Pixel) (s : State) : (s.cachePixel p).last = s.last := rfl
@[simp] theorem State.cachePixel_pc (p : Pixel) (s : State) : (s.cachePixel p).pc = s.pc := rfl
@[simp] theorem State.cachePixel_fsm (p : Pixel) (s : State) : (s.cachePixel p).fsm = s.fsm := rfl
@[simp] theorem State.cachePixel_width (p : Pixel) (s : State) : (s.cachePixel p).width = s.width := rfl
@[simp] theorem State.cachePixel_height (p : Pixel) (s : State) : (s.cachePixel p).height = s.height := rfl
@[simp] theorem State.cachePixel_channels (p : Pixel) (s : State) : (s.cachePixel p).channels = s.channels := rfl
@[simp] theorem State.cachePixel_colorspace (p : Pixel) (s : State) : (s.cachePixel p).colorspace = s.colorspace := rfl
@[simp] theorem State.cachePixel_total (p : Pixel) (s : State) : (s.cachePixel p).total = s.total := rfl
@[simp] theorem State.cachePixel_cursor (p : Pixel) (s : State) : (s.cachePixel p).cursor = s.cursor := rfl
@[simp] theorem State.cachePixel_status (p : Pixel) (s : State) : (s.cachePixel p).status = s.status := rfl
@[simp] theorem State.cachePixel_pix (p : Pixel) (s : State) : (s.cachePixel p).pix = s.pix := rfl
@[simp] theorem State.cachePixel_input (p : Pixel) (s : State) : (s.cachePixel p).input = s.input := rfl
@[simp] theorem State.cachePixel_maxPixels (p : Pixel) (s : State) : (s.cachePixel p).maxPixels = s.maxPixels := rfl

@[simp] theorem State.setLast_x (p : Pixel) (s : State) : (s.setLast p).x = s.x := rfl
@[simp] theorem State.setLast_last (p : Pixel) (s : State) : (s.setLast p).last = p := rfl
@[simp] theorem State.setLast_pc (p : Pixel) (s : State) : (s.setLast p).pc = s.pc := rfl
@[simp] theorem State.setLast_fsm (p : Pixel) (s : State) : (s.setLast p).fsm = s.fsm := rfl
@[simp] theorem State.setLast_width (p : Pixel) (s : State) : (s.setLast p).width = s.width := rfl
@[simp] theorem State.setLast_height (p : Pixel) (s : State) : (s.setLast p).height = s.height := rfl
@[simp] theorem State.setLast_channels (p : Pixel) (s : State) : (s.setLast p).channels = s.channels := rfl
@[simp] theorem State.setLast_colorspace (p : Pixel) (s : State) : (s.setLast p).colorspace = s.colorspace := rfl
@[simp] theorem State.setLast_total (p : Pixel) (s : State) : (s.setLast p).total = s.total := rfl
@[simp] theorem State.setLast_cursor (p : Pixel) (s : State) : (s.setLast p).cursor = s.cursor := rfl
@[simp] theorem State.setLast_status (p : Pixel) (s : State) : (s.setLast p).status = s.status := rfl
@[simp] theorem State.setLast_pix (p : Pixel) (s : State) : (s.setLast p).pix = s.pix := rfl
@[simp] theorem State.setLast_input (p : Pixel) (s : State) : (s.setLast p).input = s.input := rfl
@[simp] theorem State.setLast_maxPixels (p : Pixel) (s : State) : (s.setLast p).maxPixels = s.maxPixels := rfl

@[simp] theorem State.addCursor_x (n : Nat) (s : State) : (s.addCursor n).x = s.x := rfl
@[simp] theorem State.addCursor_last (n : Nat) (s : State) : (s.addCursor n).last = s.last := rfl
@[simp] theorem State.addCursor_pc (n : Nat) (s : State) : (s.addCursor n).pc = s.pc := rfl
@[simp] theorem State.addCursor_fsm (n : Nat) (s : State) : (s.addCursor n).fsm = s.fsm := rfl
@[simp] theorem State.addCursor_width (n : Nat) (s : State) : (s.addCursor n).width = s.width := rfl
@[simp] theorem State.addCursor_height (n : Nat) (s : State) : (s.addCursor n).height = s.height := rfl
@[simp] theorem State.addCursor_channels (n : Nat) (s : State) : (s.addCursor n).channels = s.channels := rfl
@[simp] theorem State.addCursor_colorspace (n : Nat) (s : State) : (s.addCursor n).colorspace = s.colorspace := rfl
@[simp] theorem State.addCursor_total (n : Nat) (s : State) : (s.addCursor n).total = s.total := rfl
@[simp] theorem State.addCursor_cursor (n : Nat) (s : State) : (s.addCursor n).cursor = s.cursor + n := rfl
@[simp] theorem State.addCursor_status (n : Nat) (s : State) : (s.addCursor n).status = s.status := rfl
@[simp] theorem State.addCursor_pix (n : Nat) (s : State) : (s.addCursor n).pix = s.pix := rfl
@[simp] theorem State.addCursor_input (n : Nat) (s : State) : (s.addCursor n).input = s.input := rfl
@[simp] theorem State.addCursor_maxPixels (n : Nat) (s : State) : (s.addCursor n).maxPixels = s.maxPixels := rfl

@[simp] theorem State.setFsm_x (f : Fsm) (s : State) : (s.setFsm f).x = s.x := rfl
@[simp] theorem State.setFsm_last (f : Fsm) (s : State) : (s.setFsm f).last = s.last := rfl
@[simp] theorem State.setFsm_pc (f : Fsm) (s : State) : (s.setFsm f).pc = s.pc := rfl
@[simp] theorem State.setFsm_fsm (f : Fsm) (s : State) : (s.setFsm f).fsm = f := rfl
@[simp] theorem State.setFsm_width (f : Fsm) (s : State) : (s.setFsm f).width = s.width := rfl
@[simp] theorem State.setFsm_height (f : Fsm) (s : State) : (s.setFsm f).height = s.height := rfl
@[simp] theorem State.setFsm_channels (f : Fsm) (s : State) : (s.setFsm f).channels = s.channels := rfl
@[simp] theorem State.setFsm_colorspace (f : Fsm) (s : State) : (s.setFsm f).colorspace = s.colorspace := rfl
@[simp] theorem State.setFsm_total (f : Fsm) (s : State) : (s.setFsm f).total = s.total := rfl
@[simp] theorem State.setFsm_cursor (f : Fsm) (s : State) : (s.setFsm f).cursor = s.cursor := rfl
@[simp] theorem State.setFsm_status (f : Fsm) (s : State) : (s.setFsm f).status = s.status := rfl
@[simp] theorem State.setFsm_pix (f : Fsm) (s : State) : (s.setFsm f).pix = s.pix := rfl
@[simp] theorem State.setFsm_input (f : Fsm) (s : State) : (s.setFsm f).input = s.input := rfl
@[simp] theorem State.setFsm_maxPixels (f : Fsm) (s : State) : (s.setFsm f).maxPixels = s.maxPixels := rfl

@[simp] theorem State.setTotal_x (n : Nat) (s : State) : (s.setTotal n).x = s.x := rfl
@[simp] theorem State.setTotal_last (n : Nat) (s : State) : (s.setTotal n).last = s.last := rfl
@[simp] theorem State.setTotal_pc (n : Nat) (s : State) : (s.setTotal n).pc = s.pc := rfl
@[simp] theorem State.setTotal_fsm (n : Nat) (s : State) : (s.setTotal n).fsm = s.fsm := rfl
@[simp] theorem State.setTotal_width (n : Nat) (s : State) : (s.setTotal n).width = s.width := rfl
@[simp] theorem State.setTotal_height (n : Nat) (s : State) : (s.setTotal n).height = s.height := rfl
@[simp] theorem State.setTotal_channels (n : Nat) (s : State) : (s.setTotal n).channels = s.channels := rfl
@[simp] theorem State.setTotal_colorspace (n : Nat) (s : State) : (s.setTotal n).colorspace = s.colorspace := rfl
@[simp] theorem State.setTotal_total (n : Nat) (s : State) : (s.setTotal n).total = n := rfl
@[simp] theorem State.setTotal_cursor (n : Nat) (s : State) : (s.setTotal n).cursor = s.cursor := rfl
@[simp] theorem State.setTotal_status (n : Nat) (s : State) : (s.setTotal n).status = s.status := rfl
@[simp] theorem State.setTotal_pix (n : Nat) (s : State) : (s.setTotal n).pix = s.pix := rfl
@[simp] theorem State.setTotal_input (n : Nat) (s : State) : (s.setTotal n).input = s.input := rfl
@[simp] theorem State.setTotal_maxPixels (n : Nat) (s : State) : (s.setTotal n).maxPixels = s.maxPixels := rfl

@[simp] theorem State.setStatus_x (st : Status) (s : State) : (s.setStatus st).x = s.x := rfl
@[simp] theorem State.setStatus_last (st : Status) (s : State) : (s.setStatus st).last = s.last := rfl
@[simp] theorem State.setStatus_pc (st : Status) (s : State) : (s.setStatus st).pc = s.pc := rfl
@[simp] theorem State.setStatus_fsm (st : Status) (s : State) : (s.setStatus st).fsm = s.fsm := rfl
@[simp] theorem State.setStatus_width (st : Status) (s : State) : (s.setStatus st).width = s.width := rfl
@[simp] theorem State.setStatus_height (st : Status) (s : State) : (s.setStatus st).height = s.height := rfl
@[simp] theorem State.setStatus_channels (st : Status) (s : State) : (s.setStatus st).channels = s.channels := rfl
@[simp] theorem State.setStatus_colorspace (st : Status) (s : State) : (s.setStatus st).colorspace = s.colorspace := rfl
@[simp] theorem State.setStatus_total (st : Status) (s : State) : (s.setStatus st).total = s.total := rfl
@[simp] theorem State.setStatus_cursor (st : Status) (s : State) : (s.setStatus st).cursor = s.cursor := rfl
@[simp] theorem State.setStatus_status (st : Status) (s : State) : (s.setStatus st).status = st := rfl
@[simp] theorem State.setStatus_pix (st : Status) (s : State) : (s.setStatus st).pix = s.pix := rfl
@[simp] theorem State.setStatus_input (st : Status) (s : State) : (s.setStatus st).input = s.input := rfl
@[simp] theorem State.setStatus_maxPixels (st : Status) (s : State) : (s.setStatus st).maxPixels = s.maxPixels := rfl

@[simp] theorem State.setPix_x (m : Option (Memory Pixel)) (s : State) : (s.setPix m).x = s.x := rfl
@[simp] theorem State.setPix_last (m : Option (Memory Pixel)) (s : State) : (s.setPix m).last = s.last := rfl
@[simp] theorem State.setPix_pc (m : Option (Memory Pixel)) (s : State) : (s.setPix m).pc = s.pc := rfl
@[simp] theorem State.setPix_fsm (m : Option (Memory Pixel)) (s : State) : (s.setPix m).fsm = s.fsm := rfl
@[simp] theorem State.setPix_width (m : Option (Memory Pixel)) (s : State) : (s.setPix m).width = s.width := rfl
@[simp] theorem State.setPix_height (m : Option (Memory Pixel)) (s : State) : (s.setPix m).height = s.height := rfl
@[simp] theorem State.setPix_channels (m : Option (Memory Pixel)) (s : State) : (s.setPix m).channels = s.channels := rfl
@[simp] theorem State.setPix_colorspace (m : Option (Memory Pixel)) (s : State) : (s.setPix m).colorspace = s.colorspace := rfl
@[simp] theorem State.setPix_total (m : Option (Memory Pixel)) (s : State) : (s.setPix m).total = s.total := rfl
@[simp] theorem State.setPix_cursor (m : Option (Memory Pixel)) (s : State) : (s.setPix m).cursor = s.cursor := rfl
@[simp] theorem State.setPix_status (m : Option (Memory Pixel)) (s : State) : (s.setPix m).status = s.status := rfl
@[simp] theorem State.setPix_pix (m : Option (Memory Pixel)) (s : State) : (s.setPix m).pix = m := rfl
@[simp] theorem State.setPix_input (m : Option (Memory Pixel)) (s : State) : (s.setPix m).input = s.input := rfl
@[simp] theorem State.setPix_maxPixels (m : Option (Memory Pixel)) (s : State) : (s.setPix m).maxPixels = s.maxPixels := rfl

@[simp] theorem State.setHeader_x (h : Header) (s : State) : (s.setHeader h).x = s.x := rfl
@[simp] theorem State.setHeader_last (h : Header) (s : State) : (s.setHeader h).last = s.last := rfl
@[simp] theorem State.setHeader_pc (h : Header) (s : State) : (s.setHeader h).pc = s.pc := rfl
@[simp] theorem State.setHeader_fsm (h : Header) (s : State) : (s.setHeader h).fsm = s.fsm := rfl
@[simp] theorem State.setHeader_width (h : Header) (s : State) : (s.setHeader h).width = h.width := rfl
@[simp] theorem State.setHeader_height (h : Header) (s : State) : (s.setHeader h).height = h.height := rfl
@[simp] theorem State.setHeader_channels (h : Header) (s : State) : (s.setHeader h).channels = h.channels := rfl
@[simp] theorem State.setHeader_colorspace (h : Header) (s : State) : (s.setHeader h).colorspace = h.colorspace := rfl
@[simp] theorem State.setHeader_total (h : Header) (s : State) : (s.setHeader h).total = s.total := rfl
@[simp] theorem State.setHeader_cursor (h : Header) (s : State) : (s.setHeader h).cursor = s.cursor := rfl
@[simp] theorem State.setHeader_status (h : Header) (s : State) : (s.setHeader h).status = s.status := rfl
@[simp] theorem State.setHeader_pix (h : Header) (s : State) : (s.setHeader h).pix = s.pix := rfl
@[simp] theorem State.setHeader_input (h : Header) (s : State) : (s.setHeader h).input = s.input := rfl
@[simp] theorem State.setHeader_maxPixels (h : Header) (s : State) : (s.setHeader h).maxPixels = s.maxPixels := rfl

@[simp] theorem State.raise_x (d : Detail) (s : State) : (s.raise d).x = s.x := rfl
@[simp] theorem State.raise_last (d : Detail) (s : State) : (s.raise d).last = s.last := rfl
@[simp] theorem State.raise_pc (d : Detail) (s : State) : (s.raise d).pc = s.pc := rfl
@[simp] theorem State.raise_fsm (d : Detail) (s : State) : (s.raise d).fsm = .failed := rfl
@[simp] theorem State.raise_width (d : Detail) (s : State) : (s.raise d).width = s.width := rfl
@[simp] theorem State.raise_height (d : Detail) (s : State) : (s.raise d).height = s.height := rfl
@[simp] theorem State.raise_channels (d : Detail) (s : State) : (s.raise d).channels = s.channels := rfl
@[simp] theorem State.raise_colorspace (d : Detail) (s : State) : (s.raise d).colorspace = s.colorspace := rfl
@[simp] theorem State.raise_total (d : Detail) (s : State) : (s.raise d).total = s.total := rfl
@[simp] theorem State.raise_cursor (d : Detail) (s : State) : (s.raise d).cursor = s.cursor := rfl
@[simp] theorem State.raise_status (d : Detail) (s : State) : (s.raise d).status = ⟨d.category, d⟩ := rfl
@[simp] theorem State.raise_pix (d : Detail) (s : State) : (s.raise d).pix = none := rfl
@[simp] theorem State.raise_input (d : Detail) (s : State) : (s.raise d).input = s.input := rfl
@[simp] theorem State.raise_maxPixels (d : Detail) (s : State) : (s.raise d).maxPixels = s.maxPixels := rfl

/-! ## The cache -/

/-- A slot of the cache after a pixel was cached: that pixel at its hash, every other slot as before (R21). -/
theorem State.slot_cachePixel (p : Pixel) (s : State) (i : Fin 64) :
    (s.cachePixel p).slot i = if i = pixelHash p then p else s.slot i := by
  unfold State.slot State.cachePixel
  by_cases h : i = pixelHash p
  · subst h; simp
  · have h' : (pixelHash p).val ≠ i.val := fun e => h (Fin.ext e.symm)
    simp [Vector.getElem_set_ne, h, h']

@[simp] theorem State.slot_advance (n : Nat) (s : State) (i : Fin 64) : (s.advance n).slot i = s.slot i := rfl
@[simp] theorem State.slot_setLast (p : Pixel) (s : State) (i : Fin 64) : (s.setLast p).slot i = s.slot i := rfl
@[simp] theorem State.slot_addCursor (n : Nat) (s : State) (i : Fin 64) : (s.addCursor n).slot i = s.slot i := rfl
@[simp] theorem State.slot_setFsm (f : Fsm) (s : State) (i : Fin 64) : (s.setFsm f).slot i = s.slot i := rfl
@[simp] theorem State.slot_setTotal (n : Nat) (s : State) (i : Fin 64) : (s.setTotal n).slot i = s.slot i := rfl
@[simp] theorem State.slot_setStatus (st : Status) (s : State) (i : Fin 64) : (s.setStatus st).slot i = s.slot i := rfl
@[simp] theorem State.slot_setPix (m : Option (Memory Pixel)) (s : State) (i : Fin 64) : (s.setPix m).slot i = s.slot i := rfl
@[simp] theorem State.slot_setHeader (h : Header) (s : State) (i : Fin 64) : (s.setHeader h).slot i = s.slot i := rfl
@[simp] theorem State.slot_raise (d : Detail) (s : State) (i : Fin 64) : (s.raise d).slot i = s.slot i := rfl

/-! ## Reset (R38) -/

@[simp] theorem State.reset_slot (i : Fin 64) : State.reset.slot i = Config.cacheInit := by
  simp [State.slot, State.reset]

@[simp] theorem State.reset_last : State.reset.last = Config.lastInit := rfl
@[simp] theorem State.reset_pc : State.reset.pc = 0 := rfl
@[simp] theorem State.reset_fsm : State.reset.fsm = .readingHeader := rfl
@[simp] theorem State.reset_total : State.reset.total = 0 := rfl
@[simp] theorem State.reset_cursor : State.reset.cursor = 0 := rfl
@[simp] theorem State.reset_status : State.reset.status = ⟨.none, .none⟩ := rfl
@[simp] theorem State.reset_pix : State.reset.pix = none := rfl
@[simp] theorem State.reset_input : State.reset.input = [] := rfl

end Sys2Proof.Machine
end

