-- ==== Sys2Proof/Laws/Ops.lean ====
section
/-! SUPPORT. One lemma for each shared operation that says everything it can do, and from them one inversion lemma for
`exec` and one for `step`: cite these, do not unfold the machine. -/

namespace Sys2Proof.Machine

/-! ## The guard, the store and the two write paths -/

theorem State.whenFsm_pos {f : Fsm} {s : State} (h : s.fsm = f) (k : State → Outcome) : s.whenFsm f k = k s := by
  simp [State.whenFsm, h]

/-- A guarded effect answers a next state only in its FSM state, and then it is the effect's. -/
theorem State.whenFsm_next {f : Fsm} {s t : State} {k : State → Outcome} (h : s.whenFsm f k = .next t) :
    s.fsm = f ∧ k s = .next t := by
  unfold State.whenFsm at h
  split at h
  · exact ⟨‹_›, h⟩
  · cases h

/-- What the single-pixel path leaves where it stores (R149). -/
def State.stored (p : Pixel) (m : Memory Pixel) (s : State) : State :=
  (((s.setPix (some (Memory.write m s.cursor p))).addCursor 1).setLast p).cachePixel p

/-- What RUN's path leaves where it stores (R190). -/
def State.storedRun (count : Nat) (m : Memory Pixel) (s : State) : State :=
  ((s.setPix (some (Memory.writeRun m s.last s.cursor count))).addCursor count).cachePixel s.last

/-- Everything `Emit` can do (R149). -/
theorem State.emit_cases (p : Pixel) (s : State) :
    (s.total ≤ s.cursor ∧ s.emit p = .next (s.raise .pixelOverflow)) ∨
    (s.cursor < s.total ∧ ∃ m, s.pix = some m ∧ s.emit p = .next (s.stored p m)) ∨
    (s.cursor < s.total ∧ s.pix = none ∧ s.emit p = .fault .noOutputCell) := by
  unfold State.emit State.emitOverflows State.memWrite
  by_cases h : s.total ≤ s.cursor
  · exact .inl ⟨h, by simp [h]⟩
  · right
    have hlt : s.cursor < s.total := by omega
    have hle : s.cursor + 1 ≤ s.total := by omega
    cases hp : s.pix with
    | none => exact .inr ⟨hlt, rfl, by simp [h, Outcome.andThen]⟩
    | some m => exact .inl ⟨hlt, m, rfl, by simp [h, hle, Outcome.andThen, State.stored]⟩

/-- Everything RUN's path can do (R190). -/
theorem State.emitRun_cases (count : Nat) (s : State) :
    (s.total < s.cursor + count ∧ s.emitRun count = .next (s.raise .runOverflow)) ∨
    (s.cursor + count ≤ s.total ∧ ∃ m, s.pix = some m ∧ s.emitRun count = .next (s.storedRun count m)) ∨
    (s.cursor + count ≤ s.total ∧ s.pix = none ∧ s.emitRun count = .fault .noOutputCell) := by
  unfold State.emitRun State.runOverflows State.memWrite
  by_cases h : s.total < s.cursor + count
  · exact .inl ⟨h, by simp [h]⟩
  · right
    have hle : s.cursor + count ≤ s.total := by omega
    cases hp : s.pix with
    | none => exact .inr ⟨hle, rfl, by simp [h, Outcome.andThen]⟩
    | some m => exact .inl ⟨hle, m, rfl, by simp [h, hle, Outcome.andThen, State.storedRun]⟩

/-! ## What an instruction can do -/

/-- The pixel each single-pixel opcode emits (R160, R161, R170, R180, R181). -/
def State.pixelFor (s : State) : Instr → Option Pixel
  | .rgb r g b => some (rgbPixel s.last r g b)
  | .rgba r g b a => some ⟨r, g, b, a⟩
  | .index idx => some (s.slot idx)
  | .diff dr dg db => some (movedPixel s.last dr dg db)
  | .luma dg drg dbg => some (lumaPixel s.last dg drg dbg)
  | .run _ => none
  | .header _ => none
  | .endMarker => none

/-- A single-pixel opcode is `Emit` of its pixel past its bytes, in `DecodingOpcodes`. -/
theorem exec_pixel {i : Instr} {s : State} {p : Pixel} (h : s.pixelFor i = some p) :
    exec i s = s.whenFsm .decodingOpcodes fun s => (s.advance i.length).emit p := by
  cases i <;> simp only [State.pixelFor, Option.some.injEq, reduceCtorEq] at h <;> subst h <;>
    (unfold State.whenFsm exec; rfl)

/-- The effects a next state of `exec` can come from. -/
inductive ExecEffect (i : Instr) (s t : State) : Prop where
  /-- A single pixel was emitted. `n` is the number of bytes consumed. -/
  | pixel (n : Nat) (p : Pixel) (m : Memory Pixel) (fsm : s.fsm = .decodingOpcodes)
      (instr : (s.pixelFor i = some p ∧ n = i.length) ∨
        (i = .endMarker ∧ s.cursor ≠ s.total ∧ p = s.slot 0 ∧ n = 1))
      (room : s.cursor < s.total) (pix : s.pix = some m) (eq : t = (s.advance n).stored p m)
  /-- The grid was full. -/
  | overflow (n : Nat) (fsm : s.fsm = .decodingOpcodes)
      (instr : ((s.pixelFor i).isSome ∧ n = i.length) ∨ (i = .endMarker ∧ s.cursor ≠ s.total ∧ n = 1))
      (full : s.total ≤ s.cursor) (eq : t = (s.advance n).raise .pixelOverflow)
  /-- A run was emitted. -/
  | run (count : Nat) (m : Memory Pixel) (fsm : s.fsm = .decodingOpcodes) (instr : i = .run count)
      (room : s.cursor + count ≤ s.total) (pix : s.pix = some m) (eq : t = (s.advance 1).storedRun count m)
  /-- A run did not fit. -/
  | runOverflow (count : Nat) (fsm : s.fsm = .decodingOpcodes) (instr : i = .run count)
      (full : s.total < s.cursor + count) (eq : t = (s.advance 1).raise .runOverflow)
  /-- A header was accepted. -/
  | header (h : Header) (fsm : s.fsm = .readingHeader) (instr : i = .header h) (valid : headerFailure h = none)
      (eq : t = ((s.advance 14).setHeader h).setFsm .allocatingGrid)
  /-- A header was refused. -/
  | badHeader (h : Header) (d : Detail) (fsm : s.fsm = .readingHeader) (instr : i = .header h)
      (invalid : headerFailure h = some d) (eq : t = (s.advance 14).raise d)
  /-- The call ended. -/
  | ended (fsm : s.fsm = .decodingOpcodes) (instr : i = .endMarker) (full : s.cursor = s.total)
      (eq : t = s.setFsm .done)

/-- Inversion of a single-pixel opcode. -/
theorem exec_pixel_effect {i : Instr} {s t : State} {p : Pixel} (hp : s.pixelFor i = some p)
    (h : exec i s = .next t) : ExecEffect i s t := by
  rw [exec_pixel hp] at h
  obtain ⟨hf, h⟩ := State.whenFsm_next h
  rcases State.emit_cases p (s.advance i.length) with ⟨hc, he⟩ | ⟨hc, m, hm, he⟩ | ⟨_, _, he⟩ <;>
    rw [he] at h <;> cases h
  · exact .overflow i.length hf (.inl ⟨by simp [hp], rfl⟩) hc rfl
  · exact .pixel i.length p m hf (.inl ⟨hp, rfl⟩) hc hm rfl

/-- Everything an instruction that answers a next state can have done. -/
theorem exec_effect {i : Instr} {s t : State} (h : exec i s = .next t) : ExecEffect i s t := by
  cases i with
  | rgb r g b => exact exec_pixel_effect rfl h
  | rgba r g b a => exact exec_pixel_effect rfl h
  | index idx => exact exec_pixel_effect rfl h
  | diff dr dg db => exact exec_pixel_effect rfl h
  | luma dg drg dbg => exact exec_pixel_effect rfl h
  | run count =>
    obtain ⟨hf, h⟩ := State.whenFsm_next (show execRun count s = .next t from h)
    rcases State.emitRun_cases count (s.advance 1) with ⟨hc, he⟩ | ⟨hc, m, hm, he⟩ | ⟨_, _, he⟩ <;>
      rw [he] at h <;> cases h
    · exact .runOverflow count hf rfl hc rfl
    · exact .run count m hf rfl hc hm rfl
  | header hd =>
    obtain ⟨hf, h⟩ := State.whenFsm_next (show execHeader hd s = .next t from h)
    cases hv : headerFailure hd with
    | none => rw [hv] at h; cases h; exact .header hd hf rfl hv rfl
    | some d => rw [hv] at h; cases h; exact .badHeader hd d hf rfl hv rfl
  | endMarker =>
    obtain ⟨hf, h⟩ := State.whenFsm_next (show execEndMarker s = .next t from h)
    by_cases hc : s.cursor = s.total
    · rw [if_pos (by simp [State.atTotal, hc])] at h
      cases h
      exact .ended hf rfl hc rfl
    · rw [if_neg (by simp [State.atTotal, hc])] at h
      unfold State.emitSlot at h
      rcases State.emit_cases (s.slot 0) (s.advance 1) with ⟨hd, he⟩ | ⟨hd, m, hm, he⟩ | ⟨_, _, he⟩ <;>
        rw [he] at h <;> cases h
      · exact .overflow 1 hf (.inr ⟨rfl, hc, rfl⟩) hd rfl
      · exact .pixel 1 _ m hf (.inr ⟨rfl, hc, rfl, rfl⟩) hd hm rfl

/-! ## Fetching -/

/-- `Fetch(n)` (R63): what it delivers, and past what. -/
theorem State.fetch_some {n : Nat} {s t : State} {bs : List Byte} (h : s.fetch n = some (bs, t)) :
    s.memRead s.pc n = some bs ∧ t = s.advance n := by
  unfold State.fetch at h
  split at h
  · cases h; exact ⟨‹_›, rfl⟩
  · cases h

theorem State.fetch_none {n : Nat} {s : State} (h : s.fetch n = none) : s.memRead s.pc n = none := by
  unfold State.fetch at h
  split at h
  · cases h
  · assumption

/-- A failure of fetching leaves the state but for `pc`, which has passed `n` bytes (R225). -/
inductive FetchFailure (s u : State) (d : Detail) : Prop where
  | mk (n : Nat) (eq : u = s.advance n)

theorem Fetched.ofDecoded_raised {s u : State} {d : Detail} {r : Except DecodeError (Instr × List Byte)}
    (h : Fetched.ofDecoded s r = .raised u d) : u = s ∧ ∃ e, r = .error e ∧ d = detailOf e := by
  cases r with
  | ok v => cases h
  | error e => cases h; exact ⟨rfl, e, rfl, rfl⟩

/-- A fetch raises in the state it started in, at most `pc` moved. -/
theorem State.fetchHeader_raised {s u : State} {d : Detail} (h : s.fetchHeader = .raised u d) : FetchFailure s u d := by
  unfold State.fetchHeader at h
  split at h
  · cases h; exact ⟨0, rfl⟩
  · rename_i bs s' hf
    obtain ⟨_, rfl⟩ := State.fetch_some hf
    exact ⟨14, (Fetched.ofDecoded_raised h).1⟩

theorem State.fetchOpcode_raised {s u : State} {d : Detail} (h : s.fetchOpcode = .raised u d) : FetchFailure s u d := by
  unfold State.fetchOpcode at h
  split at h
  · rename_i c s1 hf
    obtain ⟨_, rfl⟩ := State.fetch_some hf
    split at h
    · cases h; exact ⟨1, rfl⟩
    · rename_i os s2 hg
      obtain ⟨_, rfl⟩ := State.fetch_some hg
      exact ⟨1 + operandCount c, by rw [(Fetched.ofDecoded_raised h).1]; simp [State.advance, Nat.add_assoc]⟩
  · cases h; exact ⟨0, rfl⟩

theorem State.fetchIteration_raised {s u : State} {d : Detail} (h : s.fetchIteration = .raised u d) :
    FetchFailure s u d := by
  unfold State.fetchIteration at h
  split at h
  · split at h
    · cases h; exact ⟨0, rfl⟩
    · split at h
      · cases h
      · exact State.fetchOpcode_raised h
  · exact State.fetchOpcode_raised h

/-! ## What a step can do -/

/-- The effects a next state of `step` can come from. -/
inductive StepEffect (s t : State) : Prop where
  /-- An instruction was fetched and run. -/
  | ran (i : Instr)
      (fetched : (s.fsm = .readingHeader ∧ s.fetchHeader = .instr i) ∨
        (s.fsm = .decodingOpcodes ∧ s.fetchIteration = .instr i))
      (effect : ExecEffect i s t)
  /-- The fetch failed with `pc` moved by `n`. -/
  | fetchFailed (n : Nat) (d : Detail)
      (fetched : (s.fsm = .readingHeader ∧ s.fetchHeader = .raised (s.advance n) d) ∨
        (s.fsm = .decodingOpcodes ∧ s.fetchIteration = .raised (s.advance n) d))
      (eq : t = (s.advance n).raise d)
  /-- The grid was allocated. -/
  | allocated (fsm : s.fsm = .allocatingGrid) (fits : s.width.toNat * s.height.toNat ≤ s.maxPixels)
      (eq : t = ((s.setTotal (s.width.toNat * s.height.toNat)).setPix (some [])).setFsm .decodingOpcodes)
  /-- The grid did not fit. -/
  | allocFailed (fsm : s.fsm = .allocatingGrid) (large : s.maxPixels < s.width.toNat * s.height.toNat)
      (eq : t = (s.setTotal (s.width.toNat * s.height.toNat)).raise .alloc)

/-- Everything a step that answers a next state can have done. -/
theorem step_effect {s t : State} (h : step s = .next t) : StepEffect s t := by
  unfold step at h
  cases hf : s.fsm <;> rw [hf] at h <;> dsimp only at h
  · cases hx : s.fetchHeader with
    | instr i => rw [hx] at h; exact .ran i (.inl ⟨hf, hx⟩) (exec_effect h)
    | raised u d =>
      rw [hx] at h; cases h
      obtain ⟨n, rfl⟩ := State.fetchHeader_raised hx
      exact .fetchFailed n d (.inl ⟨hf, hx⟩) rfl
  · unfold State.allocate at h
    obtain ⟨hf, h⟩ := State.whenFsm_next h
    split at h
    · rename_i hc
      cases h
      exact .allocFailed hf hc rfl
    · rename_i hc
      cases h
      exact .allocated hf (by simpa using hc) rfl
  · cases hx : s.fetchIteration with
    | instr i => rw [hx] at h; exact .ran i (.inr ⟨hf, hx⟩) (exec_effect h)
    | raised u d =>
      rw [hx] at h; cases h
      obtain ⟨n, rfl⟩ := State.fetchIteration_raised hx
      exact .fetchFailed n d (.inr ⟨hf, hx⟩) rfl
  · cases h
  · cases h

end Sys2Proof.Machine
end

