-- ==== Sys2Proof/Laws/PerInstr.lean ====
section
/-! SUPPORT. The per-instruction family: an instruction's encoding has the length rule R101 gives it. -/

namespace Sys2Proof.Laws

/-- The encoding of an instruction is as long as rule R101 (R92, R108 for the pseudo rows) says. -/
def EncodedLength.Statement (i : Instr) : Prop := (encode i).length = i.length

theorem EncodedLength.rgb (r g b : Byte) : EncodedLength.Statement (.rgb r g b) := rfl
theorem EncodedLength.rgba (r g b a : Byte) : EncodedLength.Statement (.rgba r g b a) := rfl
theorem EncodedLength.index (idx : Fin 64) : EncodedLength.Statement (.index idx) := rfl
theorem EncodedLength.diff (dr dg db : Int) : EncodedLength.Statement (.diff dr dg db) := rfl
theorem EncodedLength.luma (dg drg dbg : Int) : EncodedLength.Statement (.luma dg drg dbg) := rfl
theorem EncodedLength.run (count : Nat) : EncodedLength.Statement (.run count) := rfl
theorem EncodedLength.header (h : Header) : EncodedLength.Statement (.header h) := rfl
theorem EncodedLength.endMarker : EncodedLength.Statement .endMarker := rfl

end Sys2Proof.Laws
end

