-- ==== Sys2Proof/Laws/Run.lean ====
section
/-! SUPPORT. Runs of several steps, for any machine: how a run starts, and what a run that reached a state did first. -/

namespace Sys2Proof.Laws

variable {M : Host.Core}

/-- A run whose first step answers a next state goes on from there. -/
theorem run_succ {k : Nat} {s t : M.State} (h : M.step s = .next t) : M.run (k + 1) s = M.run k t := by
  rw [Host.Core.run, h]

/-- A run that reached a state took a first step, and reached it from there. -/
theorem run_succ_next {k : Nat} {s t : M.State} (h : M.run (k + 1) s = .next t) :
    ∃ u, M.step s = .next u ∧ M.run k u = .next t := by
  rw [Host.Core.run] at h
  split at h
  · exact ⟨_, ‹_›, h⟩
  · cases h
  · cases h

/-- Two runs in a row are one. -/
theorem run_add {k n : Nat} {s t : M.State} (h : M.run k s = .next t) : M.run (k + n) s = M.run n t := by
  induction k generalizing s with
  | zero => cases h; rw [Nat.zero_add]
  | succ k ih =>
    obtain ⟨u, hs, hr⟩ := run_succ_next h
    rw [Nat.add_right_comm, run_succ hs, ih hr]

end Sys2Proof.Laws
end

