-- ==== Sys2Proof/Tests/Slice0.lean ====
section
/-! SUPPORT. The model's own tests: well-formedness, words written out from the formats, one or two single steps per
instruction with the results of 95_test_vectors.md, and a witness for the hypotheses of every obligation that has some. -/

namespace Sys2Proof.Tests

open Sys2Proof.Machine Sys2Proof.Safety

/-! ## Helpers -/

/-- A state in the decode loop: the input, TOTAL, CURSOR, `last`, one cache slot written, the cells of PIX. -/
def loop (bytes : List Byte) (total cursor : Nat) (last cached : Pixel) (cells : List Pixel) : State :=
  { State.reset.cachePixel cached with
    fsm := .decodingOpcodes, width := BitVec.ofNat 32 total, height := 1, channels := 4, total := total,
    cursor := cursor, last := last, pix := some (Memory.ofList 0 cells), input := Memory.ofList 0 bytes }

/-- A loop at its start: nothing emitted. -/
def start (bytes : List Byte) (total : Nat) : State := loop bytes total 0 Config.lastInit Config.cacheInit []

/-- A loop of a 1 by 1 image whose pixel is the reset pixel: the grid is full. -/
def full (bytes : List Byte) : State := loop bytes 1 1 Config.lastInit Config.cacheInit [Config.lastInit]

/-- A field of the next state, if there is one. -/
def after {α : Type} (o : Outcome) (f : State → α) : Option α :=
  match o with
  | .next s => some (f s)
  | _ => none

/-- The failure a next state records. -/
def failure (o : Outcome) : Option (Fsm × Status) := after o (fun s => (s.fsm, s.status))

/-- Pixel, new CURSOR and new `pc` of a step. -/
def emits (o : Outcome) : Option (Pixel × Nat × Nat) := after o (fun s => (s.last, s.cursor, s.pc))

def black : Pixel := ⟨0, 0, 0, 255⟩

/-! ## Well-formedness: an ill-formed term for each check, refused -/

theorem test_wf_diff_red : (Instr.diff (-3) 0 0).wf = false ∧ (Instr.diff 2 0 0).wf = false := by decide
theorem test_wf_diff_green : (Instr.diff 0 (-3) 0).wf = false ∧ (Instr.diff 0 2 0).wf = false := by decide
theorem test_wf_diff_blue : (Instr.diff 0 0 (-3)).wf = false ∧ (Instr.diff 0 0 2).wf = false := by decide
theorem test_wf_luma_green : (Instr.luma (-33) 0 0).wf = false ∧ (Instr.luma 32 0 0).wf = false := by decide
theorem test_wf_luma_red : (Instr.luma 0 (-9) 0).wf = false ∧ (Instr.luma 0 8 0).wf = false := by decide
theorem test_wf_luma_blue : (Instr.luma 0 0 (-9)).wf = false ∧ (Instr.luma 0 0 8).wf = false := by decide
theorem test_wf_run : (Instr.run 0).wf = false ∧ (Instr.run 63).wf = false := by decide
theorem test_wf_magic : (Instr.header ⟨0x514F4946, 1, 1, 4, 0⟩).wf = false := by decide
theorem test_wf_channels : (Instr.header ⟨0x716F6966, 1, 1, 5, 0⟩).wf = false := by decide
theorem test_wf_colorspace : (Instr.header ⟨0x716F6966, 1, 1, 4, 2⟩).wf = false := by decide
theorem test_wf_accepts :
    (Instr.diff (-2) 1 (-2)).wf = true ∧ (Instr.luma 31 (-8) 7).wf = true ∧ (Instr.run 62).wf = true ∧
    (Instr.header ⟨0x716F6966, 0, 5, 3, 1⟩).wf = true := by decide

/-! ## Decode: words written out from the formats (30_encoding.md) -/

theorem test_decode_rgb : decodeOpcode [0b11111110, 0xFF, 0xFE, 0xFF] = .ok (.rgb 255 254 255, []) := by decide
theorem test_decode_rgba : decodeOpcode [0b11111111, 1, 2, 3, 4, 9] = .ok (.rgba 1 2 3 4, [9]) := by decide
theorem test_decode_index : decodeOpcode [0b00111111] = .ok (.index 63, []) := by decide
theorem test_decode_diff : decodeOpcode [0b01001110] = .ok (.diff (-2) 1 0, []) := by decide
/-- Vector M5: the high nibble is red (decision D4). -/
theorem test_decode_luma : decodeOpcode [0b10100000, 0b00001111] = .ok (.luma 0 (-8) 7, []) := by decide
theorem test_decode_run : decodeOpcode [0b11000000] = .ok (.run 1, []) := by decide
/-- Vector H3: a little-endian reader would give 65536 by 256. -/
theorem test_decode_header :
    decodeAt .header [0x71, 0x6F, 0x69, 0x66, 0, 0, 1, 0, 0, 1, 0, 0, 4, 1] =
      .ok (.header ⟨0x716F6966, 256, 65536, 4, 1⟩, []) := by decide
theorem test_decode_end : decodeAt .markerDue [0, 0, 0, 0, 0, 0, 0, 1, 7] = .ok (.endMarker, [7]) := by decide
theorem test_decode_short :
    decodeOpcode [0xFE, 1, 2] = .error .truncOperand ∧ decodeOpcode [] = .error .truncOpcode ∧
    decodeAt .header [0x71] = .error .truncHeader ∧ decodeAt .markerDue [0, 0] = .error .truncEndmark := by decide
theorem test_encode_luma : encode (.luma (-5) (-6) 5) = [0x9B, 0x2D] := by decide

/-! The opcode table's words, and that the next step runs each. -/

theorem test_table_words :
    decodeTableWord 8 0xFE = some (.rgb 0 0 0) ∧ decodeTableWord 8 0xFF = some (.rgba 0 0 0 0) ∧
    decodeTableWord 8 0x05 = some (.index 5) ∧ decodeTableWord 8 0x40 = some (.diff (-2) (-2) (-2)) ∧
    decodeTableWord 8 0x80 = some (.luma (-32) (-8) (-8)) ∧ decodeTableWord 8 0xC3 = some (.run 4) := by decide
theorem test_table_header_word :
    decodeTableWord 112 0x716F696600000780000004380300 = some (.header ⟨0x716F6966, 1920, 1080, 3, 0⟩) := by decide
theorem test_table_end :
    decodeTableWord 64 1 = some .endMarker ∧ decodeTableWord 64 0x0100000000000000 = some .endMarker := by decide
theorem test_step_table_words :
    after (step (State.reset.withFetchWord 8 0xFE)) State.cursor = some 1 ∧
    after (step (State.reset.withFetchWord 8 0xFF)) State.pc = some 5 ∧
    after (step (State.reset.withFetchWord 8 0xFD)) State.cursor = some 62 ∧
    after (step (State.reset.withFetchWord 64 1)) State.fsm = some .done := by decide
theorem test_step_table_header :
    after (step (State.reset.withFetchWord 112 0x716F696600000780000004380300)) State.width = some 1920 := by decide

/-! ## Operands (vectors 2.1, rule R148) -/

theorem test_hash :
    pixelHash ⟨250, 5, 128, 100⟩ = 19 ∧ pixelHash ⟨255, 255, 255, 255⟩ = 38 ∧ pixelHash ⟨1, 0, 64, 255⟩ = 56 := by decide
theorem test_add8 : add8 0 (-2) = 254 ∧ add8 250 38 = 32 := by decide

/-! ## Single steps (95_test_vectors.md) -/

/-- Vectors L2 and L1: alpha is kept from `last`, and the pixel is cached at its hash. -/
theorem test_rgb_keeps_alpha :
    emits (step (loop [0xFE, 9, 8, 7] 1 0 ⟨1, 2, 3, 4⟩ black [])) = some (⟨9, 8, 7, 4⟩, 1, 4) := by decide
theorem test_rgb_caches :
    after (step (start [0xFE, 0x0A, 0x14, 0x1E] 1)) (fun s => s.slot 9) = some ⟨10, 20, 30, 255⟩ := by decide
/-- Vectors L3 and L7. -/
theorem test_rgba : emits (step (start [0xFF, 0xFA, 5, 0x80, 0x64] 1)) = some (⟨250, 5, 128, 100⟩, 1, 5) := by decide
theorem test_rgba_truncated :
    failure (step (start [0xFF, 1, 2, 3] 1)) = some (.failed, ⟨.truncated, .truncOperand⟩) := by decide
/-- Vectors I4 (the update goes to slot 53) and I6. -/
theorem test_index_evicts :
    after (step (loop [0x00] 2 1 ⟨64, 0, 0, 255⟩ ⟨64, 0, 0, 255⟩ [⟨64, 0, 0, 255⟩])) (fun s => (s.slot 53, s.last)) =
      some (black, black) := by decide
theorem test_index_overflow :
    failure (step (full [0, 0, 0, 0, 0, 0, 0, 0])) = some (.failed, ⟨.invalid, .pixelOverflow⟩) := by decide
/-- Vectors D4 and D5. -/
theorem test_diff_wraps :
    emits (step (loop [0x73] 1 0 ⟨255, 0, 1, 255⟩ black [])) = some (⟨0, 254, 2, 255⟩, 1, 1) := by decide
theorem test_diff_keeps_alpha :
    emits (step (loop [0x40] 1 0 ⟨0, 0, 0, 7⟩ black [])) = some (⟨254, 254, 254, 7⟩, 1, 1) := by decide
/-- Vectors M4 and M2. -/
theorem test_luma :
    emits (step (loop [0xAA, 0x5F] 1 0 ⟨250, 5, 128, 100⟩ black [])) = some (⟨1, 15, 145, 100⟩, 1, 2) := by decide
theorem test_luma_extreme :
    emits (step (loop [0xBF, 0xFF] 1 0 ⟨250, 250, 250, 255⟩ black [])) = some (⟨32, 25, 32, 255⟩, 1, 2) := by decide
/-- Vectors N2 and N3. -/
theorem test_run_fills :
    after (step (loop [0xC0] 4 3 ⟨10, 20, 30, 255⟩ black [black, black, black]))
      (fun s => (s.cursor, s.pix.bind (fun m => Memory.read m 3))) = some (4, some ⟨10, 20, 30, 255⟩) := by decide
theorem test_run_overflow :
    failure (step (loop [0xC1] 4 3 black black [black, black, black])) = some (.failed, ⟨.invalid, .runOverflow⟩) := by
  decide
/-- Vectors H1 and E3c. -/
theorem test_header :
    after (step (State.reset.hostReset [0x71, 0x6F, 0x69, 0x66, 0, 0, 7, 0x80, 0, 0, 4, 0x38, 3, 0] 0))
      (fun s => (s.width, s.height, s.channels, s.pc, s.fsm)) = some (1920, 1080, 3, 14, .allocatingGrid) := by decide
theorem test_header_rejects :
    failure (step (State.reset.hostReset [0x71, 0x6F, 0x69, 0x66, 0, 0, 0, 1, 0, 0, 0, 1, 0, 7] 0)) =
      some (.failed, ⟨.invalid, .hdrChannels⟩) := by decide
/-- Vectors T1 and T4. -/
theorem test_end_done :
    after (step (full [0, 0, 0, 0, 0, 0, 0, 1])) (fun s => (s.fsm, s.pc)) = some (.done, 0) := by decide
theorem test_end_truncated :
    failure (step (full [0, 0, 0, 0, 0, 0, 0])) = some (.failed, ⟨.truncated, .truncEndmark⟩) := by decide
/-- Vector H4: the exact product exceeds the capacity. -/
theorem test_alloc_fails :
    failure (step { State.reset with fsm := .allocatingGrid, width := 0xFFFFFFFF, height := 0xFFFFFFFF }) =
      some (.failed, ⟨.allocationFailure, .alloc⟩) := by decide
theorem test_terminal_has_no_step :
    step { State.reset with fsm := .done } = .fault .callDone ∧
    step { State.reset with fsm := .failed } = .fault .callFailed := ⟨rfl, rfl⟩
theorem test_reset_memory_wf : Memory.wf State.reset.input ∧ State.reset.pix = none := by decide

/-! ## Witnesses: concrete states and operands that meet the hypotheses of the obligations -/

theorem witness_DecodeOfEncodeIsTheInstruction : (Instr.luma 31 (-8) 7).wf = true ∧ (Instr.run 62).wf = true := by decide
theorem witness_OpcodeDecodeIsInjectiveAndTotal :
    decodeOpcode [0xFD] = .ok (.run 62, []) ∧ operandCount 0xFF ≤ [1, 2, 3, (4 : Byte)].length ∧
    decodeOpcode [] = .error .truncOpcode ∧ decodeOpcode [0x80] = .error .truncOperand := by decide
theorem witness_ControlByteGivesLength :
    decodeOpcode [0x3F] = .ok (.index 63, []) ∧ decodeOpcode [0x40] = .ok (.diff (-2) (-2) (-2), []) ∧
    decodeOpcode [0x7F] = .ok (.diff 1 1 1, []) ∧ decodeOpcode [0x80, 0] = .ok (.luma (-32) (-8) (-8), []) ∧
    decodeOpcode [0xBF, 0xFF] = .ok (.luma 31 7 7, []) ∧ decodeOpcode [0xC0] = .ok (.run 1, []) ∧
    decodeOpcode [0xFD] = .ok (.run 62, []) ∧ decodeOpcode [0xFE, 0, 0, 0] = .ok (.rgb 0 0 0, []) ∧
    decodeOpcode [0xFF, 0, 0, 0, 0] = .ok (.rgba 0 0 0 0, []) := by decide
theorem witness_MemReadDeliversExactlyTheInput :
    Memory.contiguous (start [7, 8] 1).input ∧ 1 + 1 ≤ (start [7, 8] 1).len ∧ (start [7, 8] 1).len < 1 + 2 := by decide
theorem witness_FetchConsumesAndPeekDoesNot :
    (start [7, 8] 1).memRead (start [7, 8] 1).pc 2 = some [7, 8] ∧
    (start [7, 8] 1).memRead (start [7, 8] 1).pc 3 = none := by decide
theorem witness_MemWriteSetsExactlyItsCells :
    (start [] 2).pix = some [] ∧ 1 + 1 ≤ (start [] 2).total ∧ (start [] 2).total < 2 + 1 ∧ State.reset.pix = none := by
  decide
theorem witness_HashIgnoresMultiplesOf64AndWrapping : 6 ≤ 6 := Nat.le_refl 6
theorem witness_EmitStoresAdvancesAndCaches :
    (start [] 1).cursor < (start [] 1).total ∧ (start [] 1).pix = some [] ∧ (full []).total ≤ (full []).cursor := by decide
theorem witness_RgbEmitsItsBytesWithLastAlpha :
    (start [0xFE, 1, 2, 3] 1).fsm = .decodingOpcodes ∧ (start [0xFE, 1, 2, 3] 1).cursor < (start [0xFE, 1, 2, 3] 1).total ∧
    (start [0xFE, 1, 2, 3] 1).pix = some [] ∧ (start [0xFE, 1, 2, 3] 1).memRead 0 4 = some [0xFE, 1, 2, 3] ∧
    (full []).fsm = .decodingOpcodes ∧ (full []).total ≤ (full []).cursor ∧
    (start [0xFE, 1, 2] 1).cursor ≠ (start [0xFE, 1, 2] 1).total ∧ (start [0xFE, 1, 2] 1).memRead 0 1 = some [0xFE] ∧
    (start [0xFE, 1, 2] 1).memRead 1 3 = none := by decide
theorem witness_RgbaEmitsItsFourBytes :
    (start [0xFF, 1, 2, 3, 4] 1).fsm = .decodingOpcodes ∧
    (start [0xFF, 1, 2, 3, 4] 1).cursor < (start [0xFF, 1, 2, 3, 4] 1).total ∧
    (start [0xFF, 1, 2, 3, 4] 1).pix = some [] ∧
    (start [0xFF, 1, 2, 3, 4] 1).memRead 0 5 = some [0xFF, 1, 2, 3, 4] ∧
    (full []).fsm = .decodingOpcodes ∧ (full []).total ≤ (full []).cursor ∧
    (start [0xFF, 1, 2, 3] 1).cursor ≠ (start [0xFF, 1, 2, 3] 1).total ∧
    (start [0xFF, 1, 2, 3] 1).memRead 0 1 = some [0xFF] ∧ (start [0xFF, 1, 2, 3] 1).memRead 1 4 = none := by decide
theorem witness_IndexEmitsItsSlot :
    (start [63] 1).fsm = .decodingOpcodes ∧ (start [63] 1).cursor < (start [63] 1).total ∧ (start [63] 1).pix = some [] ∧
    (start [63] 1).memRead 0 1 = some [BitVec.ofNat 8 (63 : Fin 64).val] ∧
    (full []).fsm = .decodingOpcodes ∧ (full []).total ≤ (full []).cursor := by decide
theorem witness_DiffAddsThreeDeltas :
    (start [0x7F] 1).fsm = .decodingOpcodes ∧ (start [0x7F] 1).cursor < (start [0x7F] 1).total ∧
    (start [0x7F] 1).pix = some [] ∧
    (start [0x7F] 1).memRead 0 1 = some [(0b01 : BitVec 2) ++ (3 : BitVec 2) ++ (3 : BitVec 2) ++ (3 : BitVec 2)] ∧
    (full []).fsm = .decodingOpcodes ∧ (full []).total ≤ (full []).cursor := by decide
theorem witness_LumaAddsGreenRelativeDeltas :
    (start [0xBF, 0x0F] 1).fsm = .decodingOpcodes ∧ (start [0xBF, 0x0F] 1).cursor < (start [0xBF, 0x0F] 1).total ∧
    (start [0xBF, 0x0F] 1).pix = some [] ∧
    (start [0xBF, 0x0F] 1).memRead 0 2 = some [(0b10 : BitVec 2) ++ (63 : BitVec 6), (0 : BitVec 4) ++ (15 : BitVec 4)] ∧
    (full []).fsm = .decodingOpcodes ∧ (full []).total ≤ (full []).cursor ∧
    (start [0xBF] 1).cursor ≠ (start [0xBF] 1).total ∧
    (start [0xBF] 1).memRead 0 1 = some [(0b10 : BitVec 2) ++ (63 : BitVec 6)] ∧ (start [0xBF] 1).memRead 1 1 = none := by
  decide
theorem witness_RunRepeatsTheLastPixel :
    (start [0xFD] 62).fsm = .decodingOpcodes ∧ (start [0xFD] 62).cursor + 62 ≤ (start [0xFD] 62).total ∧
    (start [0xFD] 62).pix = some [] ∧ (start [0xFD] 62).cursor < (start [0xFD] 62).total ∧
    (start [0xFD] 62).memRead 0 1 = some [BitVec.ofNat 8 (0xC0 + (62 - 1))] ∧
    (start [0xC1] 1).total < (start [0xC1] 1).cursor + 2 := by decide
theorem witness_HeaderIsCheckedAndStored :
    State.reset.fsm = .readingHeader ∧
    (⟨0x716F6966, 0, 0xFFFFFFFF, 3, 1⟩ : Header).magic = 0x716F6966 ∧
    (⟨0x516F6966, 1, 1, 3, 0⟩ : Header).magic ≠ 0x716F6966 ∧
    (⟨0x716F6966, 1, 1, 5, 0⟩ : Header).channels ≠ 3 ∧ (⟨0x716F6966, 1, 1, 5, 0⟩ : Header).channels ≠ 4 ∧
    (⟨0x716F6966, 1, 1, 4, 2⟩ : Header).colorspace ≠ 0 ∧ (⟨0x716F6966, 1, 1, 4, 2⟩ : Header).colorspace ≠ 1 := by decide
theorem witness_HeaderParseIsBigEndianAndPure : ([1, 2, 3] : List Byte).length < 14 := by decide
theorem witness_EndMarkerEndsTheCall :
    (full [0, 0, 0, 0, 0, 0, 0, 1]).fsm = .decodingOpcodes ∧
    (full [0, 0, 0, 0, 0, 0, 0, 1]).cursor = (full [0, 0, 0, 0, 0, 0, 0, 1]).total ∧
    (full [0, 0, 0, 0, 0, 0, 0, 1]).memRead 0 8 = some [0, 0, 0, 0, 0, 0, 0, 1] ∧
    (start [] 1).fsm = .decodingOpcodes ∧ (start [] 1).cursor ≠ (start [] 1).total := by decide
theorem witness_SinglePixelOpcodesChangeOnlyTheirOwn :
    (Instr.diff 1 1 1).isOpcode = true ∧ after (exec (.diff 1 1 1) (start [] 1)) State.fsm = some .decodingOpcodes := by
  decide
theorem witness_RunChangesOnlyItsOwn : after (exec (.run 2) (start [] 2)) State.fsm = some .decodingOpcodes := by decide
theorem witness_HeaderAllocationAndEndTouchNoPixelState :
    after (exec (.header ⟨0x716F6966, 1, 1, 4, 0⟩) State.reset) State.fsm = some .allocatingGrid ∧
    after (State.allocate { State.reset with fsm := .allocatingGrid }) State.fsm = some .decodingOpcodes ∧
    after (exec .endMarker (full [])) State.fsm = some .done ∧ (full []).cursor = (full []).total := by decide
theorem witness_FailuresArePrecise : after (step State.reset) State.fsm = some .failed := by decide
theorem witness_AlphaIsReplacedOrCopiedWhole :
    after (exec (.rgba 1 2 3 4) (start [] 1)) State.fsm = some .decodingOpcodes ∧
    after (exec (.index 0) (start [] 1)) State.fsm = some .decodingOpcodes ∧
    after (exec (.luma 0 0 0) (start [] 1)) State.fsm = some .decodingOpcodes := by decide
theorem witness_StepRunsTheDecodedInstruction :
    (State.reset.hostReset [0x71, 0x6F, 0x69, 0x66, 0, 0, 0, 1, 0, 0, 0, 1, 4, 0] 1).memRead 0 14 =
      some [0x71, 0x6F, 0x69, 0x66, 0, 0, 0, 1, 0, 0, 0, 1, 4, 0] ∧
    decodeAt .header [0x71, 0x6F, 0x69, 0x66, 0, 0, 0, 1, 0, 0, 0, 1, 4, 0] = .ok (.header ⟨0x716F6966, 1, 1, 4, 0⟩, []) ∧
    (start [0xC0] 1).memRead 0 1 = some [0xC0] ∧ (start [0xC0] 1).cursor ≠ (start [0xC0] 1).total ∧
    decodeAt .opcode [0xC0] = .ok (.run 1, []) ∧
    (full [0, 0, 0, 0, 0, 0, 0, 1]).memRead 0 8 = some [0, 0, 0, 0, 0, 0, 0, 1] ∧
    (full []).cursor = (full []).total ∧
    decodeAt .markerDue [0, 0, 0, 0, 0, 0, 0, 1] = .ok (.endMarker, []) ∧
    decodeAt .markerDue [0xC0, 0, 0, 0, 0, 0, 0, 1] = .ok (.run 1, [0, 0, 0, 0, 0, 0, 1]) := by decide
theorem witness_TransitionsFollowTheTable :
    after (step State.reset) State.fsm = some .failed ∧
    after (step { State.reset with fsm := .allocatingGrid }) State.fsm = some .decodingOpcodes ∧
    after (step (full [0, 0, 0, 0, 0, 0, 0, 1])) State.fsm = some .done ∧
    ({ State.reset with fsm := .done } : State).fsm = .done ∧ ({ State.reset with fsm := .failed } : State).fsm = .failed := by
  decide
theorem witness_EachStepRaisesOnlyItsOwnDetails :
    failure (step State.reset) = some (.failed, ⟨.truncated, .truncHeader⟩) ∧
    failure (exec (.index 0) (full [])) = some (.failed, ⟨.invalid, .pixelOverflow⟩) ∧
    failure (exec (.run 1) (full [])) = some (.failed, ⟨.invalid, .runOverflow⟩) := by decide
theorem witness_ShortReadsFailAsTruncated :
    State.reset.memRead 0 14 = none ∧ (full [0, 0, 0, 0, 0, 0, 0]).cursor = (full [0, 0, 0, 0, 0, 0, 0]).total ∧
    (full [0, 0, 0, 0, 0, 0, 0]).memRead 0 8 = none ∧ (start [] 1).cursor < (start [] 1).total ∧
    (start [] 1).memRead 0 1 = none ∧ (start [0xA0] 1).cursor < (start [0xA0] 1).total ∧
    (start [0xA0] 1).memRead 0 1 = some [0xA0] ∧ (start [0xA0] 1).memRead 1 (operandCount 0xA0) = none := by decide
theorem witness_MissingOperandsComeBeforeOverflow :
    (full [0xFE, 1]).memRead 0 1 = some [0xFE] ∧ (full [0xFE, 1]).memRead 1 (operandCount 0xFE) = none ∧
    (full [0xC0]).memRead 1 (operandCount 0xC0) = some [] ∧ (full [0xC0]).total ≤ (full [0xC0]).cursor := by decide
theorem witness_AllocationTakesTheExactProduct :
    ({ State.reset with fsm := .allocatingGrid, width := 4096, height := 4096 } : State).width.toNat * 4096 ≤
      State.reset.maxPixels ∧
    State.reset.maxPixels < ({ State.reset with width := 4097 } : State).width.toNat * 4096 ∧
    State.reset.width = 0 := by decide
theorem witness_WrongEndMarkerFailsInvalid :
    (full [0xC0, 0, 0, 0, 0, 0, 0, 1]).memRead 0 8 = some [0xC0, 0, 0, 0, 0, 0, 0, 1] ∧
    (full [0, 0, 0, 0, 0, 0, 0, 0]).memRead 0 8 = some [0, 0, 0, 0, 0, 0, 0, 0] ∧
    (full []).fsm = .decodingOpcodes ∧ (full []).cursor = (full []).total := by decide
theorem witness_MarkerBytesRunAsIndexWhilePixelsMissing :
    (start [0, 0, 0, 0, 0, 0, 0, 1] 8).cursor < (start [0, 0, 0, 0, 0, 0, 0, 1] 8).total ∧
    (start [0, 0, 0, 0, 0, 0, 0, 1] 8).memRead (0 - 0) 8 = some [0, 0, 0, 0, 0, 0, 0, 1] ∧
    ({ start [0, 0, 0, 0, 0, 0, 0, 1] 8 with pc := 7 } : State).memRead (7 - 7) 8 = some [0, 0, 0, 0, 0, 0, 0, 1] := by
  decide
theorem witness_CursorCountsEmittedPixels :
    after (exec (.run 2) (start [] 2)) State.cursor = some 2 ∧ after (step (start [0xC1] 2)) State.cursor = some 2 ∧
    (start [0xC1] 2).cursor ≤ (start [0xC1] 2).total := by decide
theorem witness_PcMovesByTheInstructionLength :
    after (exec (.run 2) (start [] 2)) State.pc = some 1 ∧
    after (step (start [0xC1] 2)) State.pc = some 1 := by decide
theorem witness_ParametersAreNeverWritten :
    after (exec (.run 2) (start [0xC1] 2)) State.maxPixels = some (2 ^ 24) ∧
    after (step (start [0xC1] 2)) State.maxPixels = some (2 ^ 24) := by decide
theorem witness_HeaderRegistersAreWrittenOnce :
    after (step (start [0xC1] 2)) State.channels = some 4 ∧
    after (step (State.reset.hostReset [0x71, 0x6F, 0x69, 0x66, 0, 0, 0, 1, 0, 0, 0, 1, 4, 0] 1)) State.fsm =
      some .allocatingGrid := by decide
theorem witness_CacheResetsToOpaqueBlackWithoutAliases : (0 : Fin 64) ≠ pixelHash black := by decide

/-- A loop after one RUN 1: the invariant's parts can all hold with a pixel emitted. -/
theorem witness_holds : Holds (full [0, 0, 0, 0, 0, 0, 0, 1]) [black] :=
  ⟨rfl, rfl, rfl, by decide⟩

theorem witness_inv_loop : Inv { full [0, 0, 0, 0, 0, 0, 0, 1] with maxPixels := 1 } where
  status_pair := rfl
  failed_iff := by decide
  cursor_le := by decide
  last_cached := by decide
  before_grid := fun h => by rcases h with h | h <;> cases h
  header_valid := fun _ => by decide
  grid := fun _ => ⟨[black], rfl, rfl, rfl, by decide⟩
  total_eq := fun _ => by decide
  done_full := fun h => by cases h
  released := fun h => by cases h

theorem witness_inv_done : Inv { full [] with fsm := .done } where
  status_pair := rfl
  failed_iff := by decide
  cursor_le := by decide
  last_cached := by decide
  before_grid := fun h => by rcases h with h | h <;> cases h
  header_valid := fun _ => by decide
  grid := fun _ => ⟨[black], rfl, rfl, rfl, by decide⟩
  total_eq := fun _ => by decide
  done_full := fun _ => by decide
  released := fun h => by cases h

/-- `StepKeepsTheCallInvariant`, `RunNeverChangesTheCache`: with `witness_inv_loop`, the step and a RUN answer next states. -/
theorem witness_StepKeepsTheCallInvariant :
    after (step { full [0, 0, 0, 0, 0, 0, 0, 1] with maxPixels := 1 }) State.fsm = some .done ∧
    after (exec (.run 1) { full [0, 0, 0, 0, 0, 0, 0, 1] with maxPixels := 1 }) State.fsm = some .failed := by decide
theorem witness_StepKeepsMemoriesCanonical :
    Memory.wf (start [0xC0] 1).input ∧ Memory.wf (Memory.ofList 0 [black]) ∧
    after (step (start [0xC0] 1)) State.pix = some (some [(0, black)]) := by decide
/-- With `witness_inv_done`. -/
theorem witness_DoneHasACompleteImage :
    ({ full [] with fsm := .done } : State).fsm = .done ∧
    State.image { full [] with fsm := .done } = some ⟨1, 1, 4, 0, [black]⟩ ∧ State.reset.fsm ≠ .done := by decide

/-- A loop with room after one pixel, for the INDEX corner cases. -/
def oneOfTwo : State := loop [] 2 1 black black [black]

theorem witness_IndexOfAnUnwrittenSlotEvicts53 :
    Holds oneOfTwo [black] ∧ after (exec (.index 53) oneOfTwo) State.fsm = some .decodingOpcodes ∧
    after (exec (.index 0) oneOfTwo) State.fsm = some .decodingOpcodes ∧ (∃ p ∈ [black], pixelHash p = 53) ∧
    ∀ p ∈ [black], pixelHash p ≠ 0 :=
  ⟨⟨rfl, rfl, rfl, by decide⟩, by decide, by decide, by decide, by decide⟩
theorem witness_RunEqualsRepeatedEmits : 1 ≤ 2 ∧ (start [] 2).cursor + 2 ≤ (start [] 2).total := by decide
theorem witness_ChannelsAndColorspaceDoNotInterfere : (start [0xC0] 1).fsm ≠ .readingHeader := by decide
theorem witness_OpcodeAppendsItsPixels :
    Holds oneOfTwo [black] ∧ (Instr.run 1).isOpcode = true ∧
    after (exec (.run 1) oneOfTwo) State.fsm = some .decodingOpcodes :=
  ⟨⟨rfl, rfl, rfl, by decide⟩, by decide, by decide⟩
theorem witness_WellFormedStreamDecodesToItsPixels :
    (⟨0x716F6966, 2, 1, 4, 0⟩ : Header).isValid = true ∧
    (∀ i ∈ [Instr.rgb 1 2 3, Instr.run 1], i.isOpcode = true ∧ i.wf = true) ∧
    (pixelsOf [.rgb 1 2 3, .run 1]).length = (2 : BitVec 32).toNat * (1 : BitVec 32).toNat ∧
    (pixelsOf [.rgb 1 2 3, .run 1]).length ≤ 2 := by decide
/-- A state from which both machines reach `Done`. -/
theorem witness_PeekPolicyCannotChangeASuccess :
    after (core.run 1 (full [0, 0, 0, 0, 0, 0, 0, 1])) State.fsm = some .done := by decide
theorem witness_DecodeLoopEnds :
    (start [0xC0] 1).fsm = .decodingOpcodes ∧ (start [0xC0] 1).pix ≠ none ∧
    (start [0xC0] 1).cursor ≤ (start [0xC0] 1).total ∧ Memory.contiguous (start [0xC0] 1).input := by decide
/-- With `witness_inv_loop` and `witness_inv_done`. -/
theorem witness_HostReadsFitTheirRegisters :
    ({ full [] with fsm := .done } : State).fsm = .done ∧ HostReg.number .detail ≤ 2 ∧ ¬ HostReg.number .width ≤ 2 := by
  decide
theorem witness_PixelLayoutsRoundTrip : 0 < 1 := Nat.one_pos

end Sys2Proof.Tests
end

section
/-! The state family (10_state.md): what CURSOR, TOTAL and the parameters are after an instruction and after a step, what
the Image is, and the cache after reset. -/

namespace Sys2Proof.Machine

open Sys2Proof.Safety

/-! ## The fields of what the two write paths leave -/

@[simp] theorem State.stored_fsm (p : Pixel) (m : Memory Pixel) (s : State) : (s.stored p m).fsm = s.fsm := rfl
@[simp] theorem State.stored_total (p : Pixel) (m : Memory Pixel) (s : State) : (s.stored p m).total = s.total := rfl
@[simp] theorem State.stored_cursor (p : Pixel) (m : Memory Pixel) (s : State) :
    (s.stored p m).cursor = s.cursor + 1 := rfl
@[simp] theorem State.stored_input (p : Pixel) (m : Memory Pixel) (s : State) : (s.stored p m).input = s.input := rfl
@[simp] theorem State.stored_maxPixels (p : Pixel) (m : Memory Pixel) (s : State) :
    (s.stored p m).maxPixels = s.maxPixels := rfl

@[simp] theorem State.storedRun_fsm (n : Nat) (m : Memory Pixel) (s : State) : (s.storedRun n m).fsm = s.fsm := rfl
@[simp] theorem State.storedRun_total (n : Nat) (m : Memory Pixel) (s : State) : (s.storedRun n m).total = s.total := rfl
@[simp] theorem State.storedRun_cursor (n : Nat) (m : Memory Pixel) (s : State) :
    (s.storedRun n m).cursor = s.cursor + n := rfl
@[simp] theorem State.storedRun_input (n : Nat) (m : Memory Pixel) (s : State) : (s.storedRun n m).input = s.input := rfl
@[simp] theorem State.storedRun_maxPixels (n : Nat) (m : Memory Pixel) (s : State) :
    (s.storedRun n m).maxPixels = s.maxPixels := rfl

section
variable {i : Instr} {s t : State}

/-! ## The parameters (R36) -/

theorem ExecEffect.parameters_eq (h : ExecEffect i s t) : t.input = s.input ∧ t.maxPixels = s.maxPixels := by
  cases h with
  | pixel _ _ _ _ _ _ _ eq | overflow _ _ _ _ eq | run _ _ _ _ _ _ eq | runOverflow _ _ _ _ eq
  | header _ _ _ _ eq | badHeader _ _ _ _ _ eq | ended _ _ _ eq => simp [eq]

theorem StepEffect.parameters_eq (h : StepEffect s t) : t.input = s.input ∧ t.maxPixels = s.maxPixels := by
  cases h with
  | ran _ _ effect => exact effect.parameters_eq
  | fetchFailed _ _ _ eq | allocated _ _ eq | allocFailed _ _ eq => simp [eq]

/-! ## TOTAL and CURSOR (R28, R29) -/

/-- No instruction writes TOTAL. -/
theorem ExecEffect.total_eq (h : ExecEffect i s t) : t.total = s.total := by
  cases h with
  | pixel _ _ _ _ _ _ _ eq | overflow _ _ _ _ eq | run _ _ _ _ _ _ eq | runOverflow _ _ _ _ eq
  | header _ _ _ _ eq | badHeader _ _ _ _ _ eq | ended _ _ _ eq => simp [eq]

/-- TOTAL is written by the allocation step alone. -/
theorem StepEffect.total_eq (h : StepEffect s t) (hf : s.fsm ≠ .allocatingGrid) : t.total = s.total := by
  cases h with
  | ran _ _ effect => exact effect.total_eq
  | fetchFailed _ _ _ eq => simp [eq]
  | allocated fsm _ _ | allocFailed fsm _ _ => exact absurd fsm hf

/-- From `s` to `t` CURSOR is unchanged, or it moved forward inside the loop to at most TOTAL. -/
def CursorAdvances (s t : State) : Prop :=
  t.cursor = s.cursor ∨
    (s.fsm = .decodingOpcodes ∧ t.fsm = .decodingOpcodes ∧ s.cursor ≤ t.cursor ∧ t.cursor ≤ t.total)

theorem ExecEffect.cursorAdvances (h : ExecEffect i s t) : CursorAdvances s t := by
  cases h with
  | pixel n p m fsm instr room pix eq =>
    subst eq
    exact .inr ⟨fsm, fsm, by simp, by simpa using room⟩
  | run count m fsm instr room pix eq =>
    subst eq
    exact .inr ⟨fsm, fsm, by simp, by simpa using room⟩
  | overflow _ _ _ _ eq | runOverflow _ _ _ _ eq | header _ _ _ _ eq | badHeader _ _ _ _ _ eq | ended _ _ _ eq =>
    exact .inl (by simp [eq])

theorem StepEffect.cursorAdvances (h : StepEffect s t) : CursorAdvances s t := by
  cases h with
  | ran _ _ effect => exact effect.cursorAdvances
  | fetchFailed _ _ _ eq | allocated _ _ eq | allocFailed _ _ eq => exact .inl (by simp [eq])

theorem pixelCount_of_pixelFor {p : Pixel} (h : s.pixelFor i = some p) : pixelCount i = 1 := by
  cases i with
  | rgb | rgba | index | diff | luma => rfl
  | run | header | endMarker => cases h

theorem pixelCount_pos (hop : i.isOpcode = true) (hwf : i.wf = true) : 0 < pixelCount i := by
  cases i with
  | rgb | rgba | index | diff | luma => exact Nat.one_pos
  | run count =>
    simp only [Instr.wf, Bool.and_eq_true, decide_eq_true_eq] at hwf
    exact hwf.1
  | header | endMarker => cases hop

/-- An opcode that completes moves CURSOR by the number of pixels it emits. -/
theorem ExecEffect.cursor_of_completed (h : ExecEffect i s t) (hop : i.isOpcode = true) (hf : t.fsm ≠ .failed) :
    t.cursor = s.cursor + pixelCount i := by
  cases h with
  | pixel n p m fsm instr room pix eq =>
    obtain ⟨hp, _⟩ | ⟨rfl, _⟩ := instr
    · simp [eq, pixelCount_of_pixelFor hp]
    · cases hop
  | run count m fsm instr room pix eq => simp [eq, instr, pixelCount]
  | overflow _ _ _ _ eq | runOverflow _ _ _ _ eq | badHeader _ _ _ _ _ eq => exact absurd (by simp [eq]) hf
  | header _ _ instr _ _ | ended _ instr _ _ => subst instr; cases hop

/-! ## The Image (R31) -/

/-- In `Done`, a state that holds exactly TOTAL pixels gives them as its Image. -/
theorem State.image_of_holds {ps : List Pixel} (hd : s.fsm = .done) (hh : Holds s ps) (hfull : s.cursor = s.total) :
    s.image = some ⟨s.width, s.height, s.channels, s.colorspace, ps⟩ := by
  have htotal : s.total = ps.length := by rw [← hfull, hh.cursor_eq]
  simp [State.image, hd, hh.pix_eq, htotal, Memory.readRange_ofList]

theorem State.image_eq_none (h : s.fsm ≠ .done) : s.image = none := by
  unfold State.image
  split
  · contradiction
  · rfl

end

/-! ## The obligations -/

/-- Settles O35: `step_effect` and `exec_effect` say where CURSOR moves, and each such move has passed its overflow test. -/
theorem cursorCountsEmittedPixels : Obligations.CursorCountsEmittedPixels := by
  refine ⟨fun _ _ _ => rfl, fun i s t hop h hf => ?_, fun s t h => ?_, fun s t h hs hle => ?_⟩
  · have hc := (exec_effect h).cursor_of_completed hop hf
    exact ⟨hc, fun hwf => by have := pixelCount_pos hop hwf; omega⟩
  · obtain hc | ⟨hs, ht, hle, _⟩ := (step_effect h).cursorAdvances
    · exact ⟨hc.ge, fun hne => absurd hc.symm hne⟩
    · exact ⟨hle, fun _ => ⟨hs, ht⟩⟩
  · obtain hc | ⟨_, _, _, hroom⟩ := (step_effect h).cursorAdvances
    · rwa [hc, (step_effect h).total_eq (by simp [hs])]
    · exact hroom

/-- Settles O37: no effect of an instruction or of a step writes a parameter. -/
theorem parametersAreNeverWritten : Obligations.ParametersAreNeverWritten :=
  ⟨fun _ _ _ h => (exec_effect h).parameters_eq, fun _ _ h => (step_effect h).parameters_eq⟩

/-- Settles O44: in `Done` the invariant gives the pixels held, and CURSOR = TOTAL makes them the whole grid. -/
theorem doneHasACompleteImage : Obligations.DoneHasACompleteImage := by
  refine ⟨fun s inv hd => ?_, fun s hd => s.image_eq_none hd⟩
  obtain ⟨ps, hh⟩ := inv.grid (.inr hd)
  obtain ⟨htotal, _⟩ := inv.total_eq (.inr hd)
  refine ⟨ps, s.image_of_holds hd hh (inv.done_full hd), ?_, fun k _ => ⟨_, hh.pix_eq, ?_⟩⟩
  · rw [← htotal, ← inv.done_full hd, hh.cursor_eq]
  · simp [Memory.read_ofList]

/-- Settles O39: `reset_slot`, and `slot_cachePixel` at a slot that is not the pixel's. -/
theorem cacheResetsToOpaqueBlackWithoutAliases : Obligations.CacheResetsToOpaqueBlackWithoutAliases :=
  ⟨State.reset_slot, fun s p i hi => by rw [State.slot_cachePixel, if_neg hi]⟩

end Sys2Proof.Machine
end

section
/-! The encoding family (30_encoding.md): what a control byte and the bytes after it decode to, range by range. -/

namespace Sys2Proof

/-- The six rows of rule R101: the opcode that control byte `c` and operand bytes begin, and the bytes left over. -/
inductive OpcodeRow (c : Byte) : List Byte → Instr → List Byte → Prop where
  | index {rest : List Byte} (range : c.toNat ≤ 0x3F) : OpcodeRow c rest (decodeIndex c) rest
  | diff {rest : List Byte} (range : 0x40 ≤ c.toNat ∧ c.toNat ≤ 0x7F) : OpcodeRow c rest (decodeDiff c) rest
  | luma {d : Byte} {rest : List Byte} (range : 0x80 ≤ c.toNat ∧ c.toNat ≤ 0xBF) :
    OpcodeRow c (d :: rest)
      (.luma ((bits c 5 0 : Int) - 32) ((bits d 7 4 : Int) - 8) ((bits d 3 0 : Int) - 8)) rest
  | run {rest : List Byte} (range : 0xC0 ≤ c.toNat ∧ c.toNat ≤ 0xFD) : OpcodeRow c rest (decodeRun c) rest
  | rgb {r g b : Byte} {rest : List Byte} (range : c.toNat = 0xFE) : OpcodeRow c (r :: g :: b :: rest) (.rgb r g b) rest
  | rgba {r g b a : Byte} {rest : List Byte} (range : c.toNat = 0xFF) :
    OpcodeRow c (r :: g :: b :: a :: rest) (.rgba r g b a) rest

section
variable {c : Byte} {os rest : List Byte} {i : Instr}

theorem decodeRgb_eq_ok (h : decodeRgb os = .ok (i, rest)) : ∃ r g b, os = r :: g :: b :: rest ∧ i = .rgb r g b := by
  unfold decodeRgb at h
  split at h
  · cases h; exact ⟨_, _, _, rfl, rfl⟩
  · cases h

theorem decodeRgba_eq_ok (h : decodeRgba os = .ok (i, rest)) :
    ∃ r g b a, os = r :: g :: b :: a :: rest ∧ i = .rgba r g b a := by
  unfold decodeRgba at h
  split at h
  · cases h; exact ⟨_, _, _, _, rfl, rfl⟩
  · cases h

theorem decodeLuma_eq_ok (h : decodeLuma c os = .ok (i, rest)) :
    ∃ d, os = d :: rest ∧ i = .luma ((bits c 5 0 : Int) - 32) ((bits d 7 4 : Int) - 8) ((bits d 3 0 : Int) - 8) := by
  unfold decodeLuma at h
  split at h
  · cases h; exact ⟨_, rfl, rfl⟩
  · cases h

/-- A decode that answers an opcode is one of the six rows: the precedence of rule R93 read as ranges of the control byte. -/
theorem opcodeRow_of_decodeOpcode (h : decodeOpcode (c :: os) = .ok (i, rest)) : OpcodeRow c os i rest := by
  have hc : c.toNat < 256 := c.isLt
  simp only [decodeOpcode, bits_7_6, ← BitVec.toNat_inj, BitVec.reduceToNat] at h
  split at h
  case isTrue range =>
    obtain ⟨r, g, b, rfl, rfl⟩ := decodeRgb_eq_ok h
    exact .rgb range
  split at h
  case isTrue range =>
    obtain ⟨r, g, b, a, rfl, rfl⟩ := decodeRgba_eq_ok h
    exact .rgba range
  split at h
  case isTrue => cases h; exact .index (by omega)
  split at h
  case isTrue => cases h; exact .diff (by omega)
  split at h
  case isTrue =>
    obtain ⟨d, rfl, rfl⟩ := decodeLuma_eq_ok h
    exact .luma (by omega)
  case isFalse => cases h; exact .run (by omega)

/-- A row's operand bytes are the instruction's length less the control byte. -/
theorem OpcodeRow.length_eq (h : OpcodeRow c os i rest) : os.length + 1 = i.length + rest.length := by
  cases h <;> simp [Instr.length, decodeIndex, decodeDiff, decodeRun] <;> omega

end

/-! ## The obligations -/

/-- Settles O4: the row read gives one clause, and the other five clauses are about ranges the control byte is not in. -/
theorem controlByteGivesLength : Obligations.ControlByteGivesLength := by
  intro c os i rest h
  have row := opcodeRow_of_decodeOpcode h
  refine ⟨row.length_eq, ?_⟩
  cases row with
  | index range => exact ⟨fun _ => ⟨⟨_, rfl⟩, rfl⟩, by omega, by omega, by omega, by omega, by omega⟩
  | diff range => exact ⟨by omega, fun _ => ⟨⟨_, _, _, rfl⟩, rfl⟩, by omega, by omega, by omega, by omega⟩
  | luma range => exact ⟨by omega, by omega, fun _ => ⟨⟨_, _, _, rfl⟩, rfl⟩, by omega, by omega, by omega⟩
  | run range => exact ⟨by omega, by omega, by omega, fun _ => ⟨⟨_, rfl⟩, rfl⟩, by omega, by omega⟩
  | rgb range => exact ⟨by omega, by omega, by omega, by omega, fun _ => ⟨⟨_, _, _, rfl⟩, rfl⟩, by omega⟩
  | rgba range => exact ⟨by omega, by omega, by omega, by omega, by omega, fun _ => ⟨⟨_, _, _, _, rfl⟩, rfl⟩⟩

end Sys2Proof
end

section
/-! The header family (40_header.md): what the parse of rule R121 answers, and when it is refused. -/

namespace Sys2Proof

/-- A list that the parse accepts begins with 14 bytes, so a shorter one is refused. -/
theorem parseHeader_of_length_lt {bs : List Byte} (hshort : bs.length < 14) : parseHeader bs = .error .truncHeader := by
  unfold parseHeader
  split
  case h_1 => simp only [List.length_cons] at hshort; omega
  case h_2 => rfl

/-! ## The obligations -/

/-- Settles O20: the word fields are `be32` of their four bytes, which `be32_toNat` reads big-endian. -/
theorem headerParseIsBigEndianAndPure : Obligations.HeaderParseIsBigEndianAndPure := by
  refine ⟨fun m0 m1 m2 m3 w0 w1 w2 w3 h0 h1 h2 h3 c cs => ?_, fun _ hshort => parseHeader_of_length_lt hshort⟩
  exact ⟨⟨be32 m0 m1 m2 m3, be32 w0 w1 w2 w3, be32 h0 h1 h2 h3, c, cs⟩, rfl,
    be32_toNat m0 m1 m2 m3, be32_toNat w0 w1 w2 w3, be32_toNat h0 h1 h2 h3, rfl, rfl⟩

end Sys2Proof
end

section
/-! The dispatch and emit family (41_dispatch_and_emit.md): the six opcodes as what decoding reads back, the operands'
arithmetic, and `Emit` in the terms of `afterPixel` and `afterFailure`. -/

namespace Sys2Proof

/-! ## Decoding an opcode (R141) -/

/-! A byte rebuilt from a number equal to it. -/

theorem ofNat_eq_of_eq_toNat {c : Byte} {n : Nat} (h : n = c.toNat) : BitVec.ofNat 8 n = c := by
  rw [h, BitVec.ofNat_toNat, BitVec.setWidth_eq]

theorem ofInt_eq_of_eq_toNat {c : Byte} {z : Int} (h : z = c.toNat) : BitVec.ofInt 8 z = c := by
  rw [h, BitVec.ofInt_natCast, BitVec.ofNat_toNat, BitVec.setWidth_eq]

section
variable {c : Byte} {os rest : List Byte} {i : Instr} {e : DecodeError}

theorem OpcodeRow.isOpcode_eq (h : OpcodeRow c os i rest) : i.isOpcode = true := by
  cases h <;> rfl

/-- Every field read with its bias removed lies in its operand range. -/
theorem OpcodeRow.wf_eq (h : OpcodeRow c os i rest) : i.wf = true := by
  cases h with
  | index | rgb | rgba => rfl
  | diff range =>
    simp only [decodeDiff, Instr.wf, inRange, bits_5_4, bits_3_2, bits_1_0, Bool.and_eq_true, decide_eq_true_eq]
    omega
  | @luma d _ range =>
    have hd := d.isLt
    simp only [Instr.wf, inRange, bits_5_0, bits_7_4, bits_3_0, Bool.and_eq_true, decide_eq_true_eq]
    omega
  | run range =>
    simp only [decodeRun, Instr.wf, bits_5_0, Bool.and_eq_true, decide_eq_true_eq]
    omega

/-- The bytes a row reads are the encoding of its opcode: within its range the fields and the tag make up the byte. -/
theorem OpcodeRow.encode_append (h : OpcodeRow c os i rest) : encode i ++ rest = c :: os := by
  cases h with
  | index range =>
    refine List.cons_eq_cons.2 ⟨ofNat_eq_of_eq_toNat ?_, rfl⟩
    rw [Fin.val_ofNat, bits_5_0]
    omega
  | diff range =>
    refine List.cons_eq_cons.2 ⟨ofInt_eq_of_eq_toNat ?_, rfl⟩
    rw [bits_5_4, bits_3_2, bits_1_0]
    omega
  | luma range =>
    refine List.cons_eq_cons.2 ⟨ofInt_eq_of_eq_toNat ?_, List.cons_eq_cons.2 ⟨ofInt_eq_of_eq_toNat ?_, rfl⟩⟩
    · rw [bits_5_0]
      omega
    · rw [bits_7_4, bits_3_0]
      omega
  | run range =>
    refine List.cons_eq_cons.2 ⟨ofNat_eq_of_eq_toNat ?_, rfl⟩
    rw [bits_5_0]
    omega
  | rgb range => rw [show c = 0xFE from BitVec.eq_of_toNat_eq range]; rfl
  | rgba range => rw [show c = 0xFF from BitVec.eq_of_toNat_eq range]; rfl

theorem decodeRgb_eq_error (h : decodeRgb os = .error e) : os.length < 3 ∧ e = .truncOperand := by
  match os with
  | [] | [_] | [_, _] => cases h; exact ⟨by simp, rfl⟩
  | _ :: _ :: _ :: _ => cases h

theorem decodeRgba_eq_error (h : decodeRgba os = .error e) : os.length < 4 ∧ e = .truncOperand := by
  match os with
  | [] | [_] | [_, _] | [_, _, _] => cases h; exact ⟨by simp, rfl⟩
  | _ :: _ :: _ :: _ :: _ => cases h

theorem decodeLuma_eq_error (h : decodeLuma c os = .error e) : os.length < 1 ∧ e = .truncOperand := by
  match os with
  | [] => cases h; exact ⟨by simp, rfl⟩
  | _ :: _ => cases h

/-- Past a control byte the only failure is too few operand bytes (R102). -/
theorem decodeOpcode_cons_eq_error (h : decodeOpcode (c :: os) = .error e) :
    os.length < operandCount c ∧ e = .truncOperand := by
  unfold operandCount
  simp only [decodeOpcode] at h
  by_cases hrgb : c = 0xFE
  · rw [if_pos hrgb] at h ⊢; exact decodeRgb_eq_error h
  rw [if_neg hrgb] at h ⊢
  by_cases hrgba : c = 0xFF
  · rw [if_pos hrgba] at h ⊢; exact decodeRgba_eq_error h
  rw [if_neg hrgba] at h ⊢
  by_cases hluma : bits c 7 6 = 2
  · simp only [hluma] at h ⊢; exact decodeLuma_eq_error h
  · rw [if_neg hluma] at h
    split at h
    · cases h
    · split at h <;> cases h

end

end Sys2Proof

namespace Sys2Proof.Machine

open Sys2Proof.Safety

/-! ## Operands (R146, R148) -/

theorem pixelHash_val (p : Pixel) : (pixelHash p).val = hashSum p % 64 := rfl

theorem hashSum_le (p : Pixel) : hashSum p ≤ 6630 := by
  have hr := p.r.isLt; have hg := p.g.isLt; have hb := p.b.isLt; have ha := p.a.isLt
  unfold hashSum
  omega

theorem add8_toNat (v : Byte) (d : Int) : ((add8 v d).toNat : Int) = (v.toNat + d) % 256 := by
  rw [add8, BitVec.toNat_ofInt]
  exact Int.toNat_of_nonneg (Int.emod_nonneg _ (by decide))

/-- `BitVec.ofInt` carries integer addition and subtraction to the wrapping ones. -/
theorem add8_sub (v : Byte) (raw bias : Nat) :
    add8 v (raw - bias) = v + BitVec.ofNat 8 raw - BitVec.ofNat 8 bias := by
  rw [add8, Int.sub_eq_add_neg, ← Int.add_assoc, BitVec.ofInt_add, BitVec.ofInt_add, BitVec.ofInt_neg]
  simp only [← BitVec.sub_eq_add_neg, BitVec.ofInt_natCast, BitVec.ofNat_toNat, BitVec.setWidth_eq]

/-! ## `Emit` past `n` bytes (R149, R224) -/

theorem State.raise_advance (s : State) (n : Nat) (d : Detail) :
    (s.advance n).raise d = afterFailure s n d.category d := rfl

theorem State.stored_advance (s : State) (m : Memory Pixel) (n : Nat) (p : Pixel) :
    (s.advance n).stored p m = afterPixel s m n p := rfl

theorem State.emit_advance_of_full {s : State} (hfull : s.total ≤ s.cursor) (n : Nat) (p : Pixel) :
    (s.advance n).emit p = .next (afterFailure s n .invalid .pixelOverflow) := by
  obtain ⟨_, he⟩ | ⟨hroom, _⟩ | ⟨hroom, _⟩ := State.emit_cases p (s.advance n)
  · exact he
  · exact absurd hfull (by simpa using hroom)
  · exact absurd hfull (by simpa using hroom)

theorem State.emit_advance_of_room {s : State} {m : Memory Pixel} (hroom : s.cursor < s.total) (hpix : s.pix = some m)
    (n : Nat) (p : Pixel) : (s.advance n).emit p = .next (afterPixel s m n p) := by
  obtain ⟨hfull, _⟩ | ⟨_, m', hm, he⟩ | ⟨_, hnone, _⟩ := State.emit_cases p (s.advance n)
  · exact absurd hroom (by simpa using hfull)
  · cases hpix.symm.trans hm; exact he
  · cases hpix.symm.trans hnone

theorem slot_afterPixel (s : State) (m : Memory Pixel) (n : Nat) (p : Pixel) (h : Fin 64) :
    (afterPixel s m n p).slot h = if h = pixelHash p then p else s.slot h :=
  State.slot_cachePixel p s h

/-! ## The obligations -/

/-- Settles O2: a decode that answers is a row, whose bytes are its opcode's encoding; one that fails had too few bytes,
so with enough of them it answers. -/
theorem opcodeDecodeIsInjectiveAndTotal : Obligations.OpcodeDecodeIsInjectiveAndTotal := by
  refine ⟨fun bs i rest h => ?_, fun c os henough => ?_, fun bs e h => ?_⟩
  · cases bs with
    | nil => cases h
    | cons c os =>
      have row := opcodeRow_of_decodeOpcode h
      exact ⟨row.isOpcode_eq, row.wf_eq, row.encode_append⟩
  · cases h : decodeOpcode (c :: os) with
    | ok r => exact ⟨r.1, r.2, rfl⟩
    | error e => exact absurd henough (Nat.not_le.2 (decodeOpcode_cons_eq_error h).1)
  · cases bs with
    | nil => cases h; exact .inl ⟨rfl, rfl⟩
    | cons c os => exact .inr ⟨c, os, rfl, decodeOpcode_cons_eq_error h⟩

/-- Settles O9: `pixelHash_val` and the bound of each channel. -/
theorem hashIsTheWeightedSumModulo64 : Obligations.HashIsTheWeightedSumModulo64 :=
  ⟨fun p => ⟨pixelHash_val p, hashSum_le p⟩, by decide⟩

/-- Settles O11: the result as an integer, and `BitVec.ofInt` as a ring map. -/
theorem channelAdditionWrapsModulo256 : Obligations.ChannelAdditionWrapsModulo256 :=
  ⟨add8_toNat, add8_sub, by decide⟩

/-- Settles O12: `Emit` past no bytes, read after write, and the slot at the pixel's hash. -/
theorem emitStoresAdvancesAndCaches : Obligations.EmitStoresAdvancesAndCaches := fun s p =>
  ⟨fun hfull => State.emit_advance_of_full hfull 0 p, fun _ hroom hpix => State.emit_advance_of_room hroom hpix 0 p,
    fun m a => Memory.read_write m s.cursor a p, fun m n h => slot_afterPixel s m n p h⟩

end Sys2Proof.Machine
end

section
/-! The literal operations family (42_literal_ops.md): a single-pixel opcode in the terms of `afterPixel` and
`afterFailure`, and the step that runs an opcode from its bytes or finds its operands missing. -/

namespace Sys2Proof.Machine

open Sys2Proof.Safety

section
variable {s : State} {i : Instr}

/-! ## A single-pixel opcode where the grid has room and where it has not (R149) -/

theorem exec_pixel_of_room {p : Pixel} {m : Memory Pixel} (hp : s.pixelFor i = some p) (hf : s.fsm = .decodingOpcodes)
    (hroom : s.cursor < s.total) (hpix : s.pix = some m) : exec i s = .next (afterPixel s m i.length p) := by
  rw [exec_pixel hp, State.whenFsm_pos hf, State.emit_advance_of_room hroom hpix]

theorem exec_pixel_of_full {p : Pixel} (hp : s.pixelFor i = some p) (hf : s.fsm = .decodingOpcodes)
    (hfull : s.total ≤ s.cursor) : exec i s = .next (afterFailure s i.length .invalid .pixelOverflow) := by
  rw [exec_pixel hp, State.whenFsm_pos hf, State.emit_advance_of_full hfull]

/-! ## The fetch of dispatch (R63, R140, R142) -/

theorem State.fetch_of_memRead {n : Nat} {bs : List Byte} (h : s.memRead s.pc n = some bs) :
    s.fetch n = some (bs, s.advance n) := by
  rw [State.fetch, h]

theorem State.fetch_of_memRead_none {n : Nat} (h : s.memRead s.pc n = none) : s.fetch n = none := by
  rw [State.fetch, h]

/-- The two fetches of dispatch read one after the other: together they read the opcode's bytes. -/
theorem State.fetchOpcode_of_memRead {c : Byte} {os rest : List Byte}
    (hdec : decodeOpcode (c :: os) = .ok (i, rest)) (hread : s.memRead s.pc (1 + operandCount c) = some (c :: os)) :
    s.fetchOpcode = .instr i := by
  obtain ⟨hctl, hops⟩ := Memory.readRange_split hread
  have h1 : s.fetch 1 = some ([c], s.advance 1) := State.fetch_of_memRead hctl
  have h2 : (s.advance 1).fetch (operandCount c) = some (os, (s.advance 1).advance (operandCount c)) :=
    State.fetch_of_memRead hops
  simp only [State.fetchOpcode, h1, h2, hdec, Fetched.ofDecoded]

theorem State.fetchOpcode_of_operands_missing {c : Byte} (hctl : s.memRead s.pc 1 = some [c])
    (hops : s.memRead (s.pc + 1) (operandCount c) = none) : s.fetchOpcode = .raised (s.advance 1) .truncOperand := by
  have h1 : s.fetch 1 = some ([c], s.advance 1) := State.fetch_of_memRead hctl
  have h2 : (s.advance 1).fetch (operandCount c) = none := State.fetch_of_memRead_none hops
  simp only [State.fetchOpcode, h1, h2]

/-! ## The step of the loop while pixels are missing (R201) -/

theorem step_of_cursor_ne (hf : s.fsm = .decodingOpcodes) (hne : s.cursor ≠ s.total) :
    step s = s.fetchOpcode.run (fun i => exec i s) := by
  have hiter : s.fetchIteration = s.fetchOpcode := by
    rw [State.fetchIteration, if_neg (by simpa [State.atTotal] using hne)]
  simp only [step, hf, hiter]

theorem step_eq_exec_of_memRead {c : Byte} {os rest : List Byte} (hf : s.fsm = .decodingOpcodes)
    (hne : s.cursor ≠ s.total) (hdec : decodeOpcode (c :: os) = .ok (i, rest))
    (hread : s.memRead s.pc (1 + operandCount c) = some (c :: os)) : step s = exec i s := by
  rw [step_of_cursor_ne hf hne, State.fetchOpcode_of_memRead hdec hread, Fetched.run]

theorem step_of_operands_missing {c : Byte} (hf : s.fsm = .decodingOpcodes) (hne : s.cursor ≠ s.total)
    (hctl : s.memRead s.pc 1 = some [c]) (hops : s.memRead (s.pc + 1) (operandCount c) = none) :
    step s = .next (afterFailure s 1 .truncated .truncOperand) := by
  rw [step_of_cursor_ne hf hne, State.fetchOpcode_of_operands_missing hctl hops, Fetched.run, State.raise_advance,
    Detail.category]

end

/-! ## The obligations -/

/-- Settles O13: RGB is a single-pixel opcode whose pixel takes its alpha from `last`, and 0xFE announces 3 operand
bytes. -/
theorem rgbEmitsItsBytesWithLastAlpha : Obligations.RgbEmitsItsBytesWithLastAlpha := by
  intro r g b s hf
  have hp : s.pixelFor (.rgb r g b) = some ⟨r, g, b, s.last.a⟩ := rfl
  have hdec : decodeOpcode [0xFE, r, g, b] = .ok (.rgb r g b, []) := rfl
  refine ⟨fun m hroom hpix => ?_, fun hfull => exec_pixel_of_full hp hf hfull,
    fun hne hctl hops => step_of_operands_missing hf hne hctl hops⟩
  have hexec := exec_pixel_of_room hp hf hroom hpix
  exact ⟨hexec, fun hread => (step_eq_exec_of_memRead hf hroom.ne hdec hread).trans hexec⟩

/-- Settles O14: RGBA is a single-pixel opcode whose pixel is its four operands, and 0xFF announces 4 operand bytes. -/
theorem rgbaEmitsItsFourBytes : Obligations.RgbaEmitsItsFourBytes := by
  intro r g b a s hf
  have hp : s.pixelFor (.rgba r g b a) = some ⟨r, g, b, a⟩ := rfl
  have hdec : decodeOpcode [0xFF, r, g, b, a] = .ok (.rgba r g b a, []) := rfl
  refine ⟨fun m hroom hpix => ?_, fun hfull => exec_pixel_of_full hp hf hfull,
    fun hne hctl hops => step_of_operands_missing hf hne hctl hops⟩
  have hexec := exec_pixel_of_room hp hf hroom hpix
  exact ⟨hexec, fun hread => (step_eq_exec_of_memRead hf hroom.ne hdec hread).trans hexec⟩

end Sys2Proof.Machine
end

section
/-! The cache look-up family (43_index_op.md): what the decoder answers on a row of rule R101 and the step that runs it,
and INDEX's byte as the row of its slot. -/

namespace Sys2Proof

section
variable {c : Byte} {os rest : List Byte} {i : Instr}

/-! ## The decoder on a row (R101, R140) -/

/-- The converse of `opcodeRow_of_decodeOpcode`: each row's range decides the tests of rule R140 in their order. -/
theorem OpcodeRow.decodeOpcode_eq (h : OpcodeRow c os i rest) : decodeOpcode (c :: os) = .ok (i, rest) := by
  simp only [decodeOpcode, bits_7_6, ← BitVec.toNat_inj, BitVec.reduceToNat]
  cases h with
  | index range => rw [if_neg (by omega), if_neg (by omega), if_pos (by omega)]
  | diff range => rw [if_neg (by omega), if_neg (by omega), if_neg (by omega), if_pos (by omega)]
  | luma range =>
    rw [if_neg (by omega), if_neg (by omega), if_neg (by omega), if_neg (by omega), if_pos (by omega), decodeLuma]
  | run range =>
    rw [if_neg (by omega), if_neg (by omega), if_neg (by omega), if_neg (by omega), if_neg (by omega)]
  | rgb range => rw [if_pos range, decodeRgb]
  | rgba range => rw [if_neg (by omega), if_pos range, decodeRgba]

/-- The operand bytes the control byte announces make up the instruction's length (R101). -/
theorem OpcodeRow.one_add_operandCount (h : OpcodeRow c os i rest) : 1 + operandCount c = i.length := by
  simp only [operandCount, bits_7_6, ← BitVec.toNat_inj, BitVec.reduceToNat]
  cases h with
  | index range | diff range | run range => rw [if_neg (by omega), if_neg (by omega), if_neg (by omega)]; rfl
  | luma range => rw [if_neg (by omega), if_neg (by omega), if_pos (by omega)]; rfl
  | rgb range => rw [if_pos range]; rfl
  | rgba range => rw [if_neg (by omega), if_pos range]; rfl

end

/-- The byte of INDEX (R96): a slot number is at most 0x3F, and its low six bits are itself. -/
theorem opcodeRow_index (idx : Fin 64) (rest : List Byte) :
    OpcodeRow (BitVec.ofNat 8 idx.val) rest (.index idx) rest := by
  have hbyte : (BitVec.ofNat 8 idx.val).toNat = idx.val := by rw [BitVec.toNat_ofNat]; omega
  have hinstr : decodeIndex (BitVec.ofNat 8 idx.val) = .index idx := by
    rw [decodeIndex, bits_5_0, hbyte, Nat.mod_eq_of_lt idx.isLt, Fin.ofNat_val_eq_self]
  rw [← hinstr]
  exact .index (by omega)

end Sys2Proof

namespace Sys2Proof.Machine

open Sys2Proof.Safety

/-- While pixels are missing, a step runs the opcode whose row stands at `pc`. -/
theorem step_eq_exec_of_opcodeRow {s : State} {c : Byte} {os rest : List Byte} {i : Instr} (row : OpcodeRow c os i rest)
    (hf : s.fsm = .decodingOpcodes) (hne : s.cursor ≠ s.total) (hread : s.memRead s.pc i.length = some (c :: os)) :
    step s = exec i s :=
  step_eq_exec_of_memRead hf hne row.decodeOpcode_eq (by rwa [row.one_add_operandCount])

/-! ## The obligations -/

/-- Settles O15: INDEX is a single-pixel opcode whose pixel is its slot, read before `Emit`, and its byte is a row of one
byte. -/
theorem indexEmitsItsSlot : Obligations.IndexEmitsItsSlot := by
  intro idx s hf
  have hp : s.pixelFor (.index idx) = some s.x[idx] := rfl
  refine ⟨fun m hroom hpix => ?_, fun hfull => exec_pixel_of_full hp hf hfull⟩
  have hexec := exec_pixel_of_room hp hf hroom hpix
  exact ⟨hexec, fun hread => (step_eq_exec_of_opcodeRow (opcodeRow_index idx []) hf hroom.ne hread).trans hexec⟩

end Sys2Proof.Machine
end

section
/-! The delta operations family (44_delta_ops.md): DIFF's byte as the row of its three raw fields. -/

namespace Sys2Proof

/-- Fields put side by side, the right one below the left (R8). -/
theorem toNat_append_eq_mul_add {v w : Nat} (x : BitVec v) (y : BitVec w) :
    (x ++ y).toNat = x.toNat * 2 ^ w + y.toNat := by
  rw [BitVec.toNat_append, ← Nat.shiftLeft_add_eq_or_of_lt y.isLt, Nat.shiftLeft_eq]

/-- The byte of DIFF (R97) is the tag 01 and the three raw fields, two bits each. -/
theorem diffByte_toNat (rr gg bb : BitVec 2) :
    ((0b01 : BitVec 2) ++ rr ++ gg ++ bb).toNat = 64 + 16 * rr.toNat + 4 * gg.toNat + bb.toNat := by
  simp only [toNat_append_eq_mul_add, BitVec.reduceToNat]
  omega

/-- Each field, the bias 2 removed, is a delta of the row. -/
theorem opcodeRow_diff (rr gg bb : BitVec 2) (rest : List Byte) :
    OpcodeRow ((0b01 : BitVec 2) ++ rr ++ gg ++ bb) rest (.diff (rr.toNat - 2) (gg.toNat - 2) (bb.toNat - 2)) rest := by
  have hbyte := diffByte_toNat rr gg bb
  have hinstr : decodeDiff ((0b01 : BitVec 2) ++ rr ++ gg ++ bb) =
      .diff (rr.toNat - 2) (gg.toNat - 2) (bb.toNat - 2) := by
    rw [decodeDiff, bits_5_4, bits_3_2, bits_1_0, hbyte]
    congr 2 <;> omega
  rw [← hinstr]
  exact .diff (by omega)

end Sys2Proof

namespace Sys2Proof.Machine

open Sys2Proof.Safety

/-! ## The obligations -/

/-- Settles O16: DIFF is a single-pixel opcode whose pixel is `last` moved by the deltas, and its byte is a row of one
byte. -/
theorem diffAddsThreeDeltas : Obligations.DiffAddsThreeDeltas := by
  intro dr dg db s hf
  have hp : ∀ dr dg db, s.pixelFor (.diff dr dg db) = some (movedPixel s.last dr dg db) := fun _ _ _ => rfl
  refine ⟨fun m hroom hpix => exec_pixel_of_room (hp dr dg db) hf hroom hpix, fun m rr gg bb hroom hpix hread => ?_,
    fun hfull => exec_pixel_of_full (hp dr dg db) hf hfull⟩
  exact (step_eq_exec_of_opcodeRow (opcodeRow_diff rr gg bb []) hf hroom.ne hread).trans
    (exec_pixel_of_room (hp _ _ _) hf hroom hpix)

end Sys2Proof.Machine
end

section
/-! The run family (45_run_op.md): RUN in the terms of `storedRun` and `afterFailure`, and RUN's byte as the row of its
count. -/

namespace Sys2Proof

/-- The byte of RUN (R99): the tag 11 and the count less 1, where every count of rule R190 stays below 0xFE. -/
theorem opcodeRow_run {count : Nat} (hpos : 1 ≤ count) (hle : count ≤ 62) (rest : List Byte) :
    OpcodeRow (BitVec.ofNat 8 (0xC0 + (count - 1))) rest (.run count) rest := by
  have hbyte : (BitVec.ofNat 8 (0xC0 + (count - 1))).toNat = 0xC0 + (count - 1) := by
    rw [BitVec.toNat_ofNat]
    omega
  have hinstr : decodeRun (BitVec.ofNat 8 (0xC0 + (count - 1))) = .run count := by
    rw [decodeRun, bits_5_0, hbyte]
    congr 1
    omega
  rw [← hinstr]
  exact .run (by omega)

end Sys2Proof

namespace Sys2Proof.Machine

open Sys2Proof.Safety

section
variable {s : State} {count : Nat}

/-! ## RUN where it fits and where it does not (R190) -/

theorem exec_run (hf : s.fsm = .decodingOpcodes) : exec (.run count) s = (s.advance 1).emitRun count :=
  State.whenFsm_pos hf fun s => (s.advance 1).emitRun count

theorem exec_run_of_room {m : Memory Pixel} (hf : s.fsm = .decodingOpcodes) (hroom : s.cursor + count ≤ s.total)
    (hpix : s.pix = some m) : exec (.run count) s = .next ((s.advance 1).storedRun count m) := by
  rw [exec_run hf]
  obtain ⟨hover, _⟩ | ⟨_, m', hm, he⟩ | ⟨_, hnone, _⟩ := State.emitRun_cases count (s.advance 1)
  · exact absurd hover (Nat.not_lt.2 hroom)
  · cases hpix.symm.trans hm; exact he
  · cases hpix.symm.trans hnone

theorem exec_run_of_overflow (hf : s.fsm = .decodingOpcodes) (hover : s.total < s.cursor + count) :
    exec (.run count) s = .next (afterFailure s 1 .invalid .runOverflow) := by
  rw [exec_run hf]
  obtain ⟨_, he⟩ | ⟨hroom, _⟩ | ⟨hroom, _⟩ := State.emitRun_cases count (s.advance 1)
  · exact he
  · exact absurd hover (Nat.not_lt.2 hroom)
  · exact absurd hover (Nat.not_lt.2 hroom)

end

/-! ## The obligations -/

/-- Settles O18: where the run fits it leaves `storedRun`, whose cells `Memory.read_writeRun` reads, and its byte is a row
of one byte. -/
theorem runRepeatsTheLastPixel : Obligations.RunRepeatsTheLastPixel := by
  intro count s hf
  refine ⟨fun m hroom hpix => ?_, fun hover => exec_run_of_overflow hf hover, fun hpos hle hlt hread => ?_⟩
  · exact ⟨Memory.writeRun m s.last s.cursor count, exec_run_of_room hf hroom hpix,
      fun a => Memory.read_writeRun m s.last s.cursor count a⟩
  · exact step_eq_exec_of_opcodeRow (opcodeRow_run hpos hle []) hf hlt.ne hread

end Sys2Proof.Machine
end

section
/-! The decode loop family (46_decode_loop.md): `pc` after an instruction and after a step, and the step whose fetch
finds a byte missing. -/

namespace Sys2Proof.Machine

open Sys2Proof.Safety

@[simp] theorem State.stored_pc (p : Pixel) (m : Memory Pixel) (s : State) : (s.stored p m).pc = s.pc := rfl
@[simp] theorem State.storedRun_pc (n : Nat) (m : Memory Pixel) (s : State) : (s.storedRun n m).pc = s.pc := rfl

section
variable {i : Instr} {s t : State}

/-! ## `pc` (R25, R207) -/

/-- Every instruction but END moves `pc` past its own bytes, where it completes and where it fails. -/
theorem ExecEffect.pc_eq (h : ExecEffect i s t) (hi : i ≠ .endMarker) : t.pc = s.pc + i.length := by
  cases h with
  | pixel _ _ _ _ instr _ _ eq | overflow _ _ instr _ eq =>
    obtain ⟨_, rfl⟩ | ⟨hend, _⟩ := instr
    · simp [eq]
    · exact absurd hend hi
  | run _ _ _ instr _ _ eq | runOverflow _ _ instr _ eq | header _ _ instr _ eq | badHeader _ _ _ instr _ eq =>
    simp [eq, instr, Instr.length]
  | ended _ instr _ _ => exact absurd instr hi

theorem ExecEffect.pc_le (h : ExecEffect i s t) : s.pc ≤ t.pc := by
  cases h with
  | pixel _ _ _ _ _ _ _ eq | overflow _ _ _ _ eq | run _ _ _ _ _ _ eq | runOverflow _ _ _ _ eq
  | header _ _ _ _ eq | badHeader _ _ _ _ _ eq | ended _ _ _ eq => simp [eq]

theorem StepEffect.pc_le (h : StepEffect s t) : s.pc ≤ t.pc := by
  cases h with
  | ran _ _ effect => exact effect.pc_le
  | fetchFailed _ _ _ eq | allocated _ _ eq | allocFailed _ _ eq => simp [eq]

/-! ## A step whose fetch finds a byte missing (R205) -/

/-- A failure of a fetch that has consumed nothing. -/
theorem State.raise_eq_afterFailure (s : State) (d : Detail) : s.raise d = afterFailure s 0 d.category d := rfl

theorem step_of_header_missing (hf : s.fsm = .readingHeader) (hread : s.memRead s.pc 14 = none) :
    step s = .next (afterFailure s 0 .truncated .truncHeader) := by
  have hfetch : s.fetchHeader = .raised s .truncHeader := by
    simp only [State.fetchHeader, State.fetch_of_memRead_none hread]
  simp only [step, hf, hfetch, Fetched.run, State.raise_eq_afterFailure, Detail.category]

theorem step_of_marker_missing (hf : s.fsm = .decodingOpcodes) (hfull : s.cursor = s.total)
    (hread : s.memRead s.pc 8 = none) : step s = .next (afterFailure s 0 .truncated .truncEndmark) := by
  have hpeek : s.peek 8 = none := hread
  have hiter : s.fetchIteration = .raised s .truncEndmark := by
    simp only [State.fetchIteration, State.atTotal, hfull, beq_self_eq_true, if_true, hpeek]
  simp only [step, hf, hiter, Fetched.run, State.raise_eq_afterFailure, Detail.category]

theorem step_of_opcode_missing (hf : s.fsm = .decodingOpcodes) (hne : s.cursor ≠ s.total)
    (hread : s.memRead s.pc 1 = none) : step s = .next (afterFailure s 0 .truncated .truncOpcode) := by
  have hfetch : s.fetchOpcode = .raised s .truncOpcode := by
    simp only [State.fetchOpcode, State.fetch_of_memRead_none hread]
  rw [step_of_cursor_ne hf hne, hfetch, Fetched.run, State.raise_eq_afterFailure, Detail.category]

end

/-! ## The obligations -/

/-- Settles O36: `exec_effect` and `step_effect` say how far each effect has moved `pc`. -/
theorem pcMovesByTheInstructionLength : Obligations.PcMovesByTheInstructionLength :=
  ⟨fun _ _ _ hi h => (exec_effect h).pc_eq hi, fun _ _ h => (step_effect h).pc_le⟩

/-- Settles O30: one lemma for each of the four required reads. -/
theorem shortReadsFailAsTruncated : Obligations.ShortReadsFailAsTruncated := fun _ =>
  ⟨step_of_header_missing, step_of_marker_missing, fun hf hlt => step_of_opcode_missing hf hlt.ne,
    fun _ hf hlt => step_of_operands_missing hf hlt.ne⟩

end Sys2Proof.Machine
end

section
/-! The rest of the encoding family (30_encoding.md): every well-formed instruction read back from its encoding, the fields
as bit slices, and the packing of a pixel. -/

namespace Sys2Proof

/-! ## Words and their bytes (R9, R69) -/

theorem be32Bytes_be32 (b0 b1 b2 b3 : Byte) : be32Bytes (be32 b0 b1 b2 b3) = [b0, b1, b2, b3] := by
  have h0 := b0.isLt; have h1 := b1.isLt; have h2 := b2.isLt; have h3 := b3.isLt
  simp only [be32Bytes, List.cons.injEq, and_true, ← BitVec.toNat_inj, BitVec.extractLsb'_toNat, be32_toNat,
    Nat.shiftRight_eq_div_pow]
  omega

/-! ## The header (R92, R121) -/

/-- The parse reads a header back from its bytes, whatever it holds. -/
theorem parseHeader_encode (h : Header) (rest : List Byte) :
    parseHeader (encode (.header h) ++ rest) = .ok (.header h, rest) := by
  show Except.ok (Instr.header ⟨be32 _ _ _ _, be32 _ _ _ _, be32 _ _ _ _, h.channels, h.colorspace⟩, rest) = _
  rw [be32_bytes, be32_bytes, be32_bytes]

theorem parseHeader_encode_self (h : Header) : parseHeader (encode (.header h)) = .ok (.header h, []) := by
  simpa using parseHeader_encode h []

theorem parseHeader_eq_ok {bs rest : List Byte} {i : Instr} (h : parseHeader bs = .ok (i, rest)) :
    ∃ hd, i = .header hd ∧ bs = encode (.header hd) ++ rest := by
  unfold parseHeader at h
  split at h
  · cases h
    exact ⟨_, rfl, by simp [encode, be32Bytes_be32]⟩
  · cases h

/-! ## The end marker (R108, R202) -/

theorem matchEndMarker_append (rest : List Byte) : matchEndMarker (Config.endMarker ++ rest) = .ok (.endMarker, rest) := by
  unfold matchEndMarker
  rw [if_neg (by simp), List.take_left' endMarker_length, if_pos rfl, List.drop_left' endMarker_length]

/-! ## The opcodes (R109) -/

theorem toNat_ofInt_byte {z : Int} (h0 : 0 ≤ z) (h1 : z < 256) : ((BitVec.ofInt 8 z).toNat : Int) = z := by
  rw [BitVec.toNat_ofInt, Int.emod_eq_of_lt h0 (by simpa using h1), Int.toNat_of_nonneg h0]

theorem opcodeRow_encodeDiff {dr dg db : Int} (hwf : (Instr.diff dr dg db).wf = true) (rest : List Byte) :
    OpcodeRow (BitVec.ofInt 8 (0x40 + (dr + 2) * 16 + (dg + 2) * 4 + (db + 2))) rest (.diff dr dg db) rest := by
  simp only [Instr.wf, inRange, Bool.and_eq_true, decide_eq_true_eq] at hwf
  have hbyte : ((BitVec.ofInt 8 (0x40 + (dr + 2) * 16 + (dg + 2) * 4 + (db + 2))).toNat : Int) =
      0x40 + (dr + 2) * 16 + (dg + 2) * 4 + (db + 2) := toNat_ofInt_byte (by omega) (by omega)
  generalize BitVec.ofInt 8 _ = c at hbyte ⊢
  have hinstr : decodeDiff c = .diff dr dg db := by
    rw [decodeDiff, bits_5_4, bits_3_2, bits_1_0]
    congr 1 <;> omega
  rw [← hinstr]
  exact .diff (by omega)

theorem opcodeRow_encodeLuma {dg drg dbg : Int} (hwf : (Instr.luma dg drg dbg).wf = true) (rest : List Byte) :
    OpcodeRow (BitVec.ofInt 8 (0x80 + (dg + 32))) (BitVec.ofInt 8 ((drg + 8) * 16 + (dbg + 8)) :: rest)
      (.luma dg drg dbg) rest := by
  simp only [Instr.wf, inRange, Bool.and_eq_true, decide_eq_true_eq] at hwf
  have hctl : ((BitVec.ofInt 8 (0x80 + (dg + 32))).toNat : Int) = 0x80 + (dg + 32) :=
    toNat_ofInt_byte (by omega) (by omega)
  have hop : ((BitVec.ofInt 8 ((drg + 8) * 16 + (dbg + 8))).toNat : Int) = (drg + 8) * 16 + (dbg + 8) :=
    toNat_ofInt_byte (by omega) (by omega)
  generalize BitVec.ofInt 8 (0x80 + (dg + 32)) = c at hctl ⊢
  generalize BitVec.ofInt 8 ((drg + 8) * 16 + (dbg + 8)) = d at hop ⊢
  have hinstr : Instr.luma ((bits c 5 0 : Int) - 32) ((bits d 7 4 : Int) - 8) ((bits d 3 0 : Int) - 8) =
      .luma dg drg dbg := by
    rw [bits_5_0, bits_7_4, bits_3_0]
    congr 1 <;> omega
  rw [← hinstr]
  exact .luma (by omega)

/-- A well-formed opcode's encoding is a row of rule R101, whatever follows it. -/
theorem opcodeRow_encode {i : Instr} (hop : i.isOpcode = true) (hwf : i.wf = true) :
    ∃ c os, encode i = c :: os ∧ ∀ rest, OpcodeRow c (os ++ rest) i rest := by
  cases i with
  | rgb r g b => exact ⟨0xFE, [r, g, b], rfl, fun _ => .rgb rfl⟩
  | rgba r g b a => exact ⟨0xFF, [r, g, b, a], rfl, fun _ => .rgba rfl⟩
  | index idx => exact ⟨_, [], rfl, opcodeRow_index idx⟩
  | diff dr dg db => exact ⟨_, [], rfl, opcodeRow_encodeDiff hwf⟩
  | luma dg drg dbg => exact ⟨_, [_], rfl, opcodeRow_encodeLuma hwf⟩
  | run count =>
    simp only [Instr.wf, Bool.and_eq_true, decide_eq_true_eq] at hwf
    exact ⟨_, [], rfl, opcodeRow_run hwf.1 hwf.2⟩
  | header | endMarker => cases hop

theorem decodeOpcode_encode {i : Instr} (hop : i.isOpcode = true) (hwf : i.wf = true) (rest : List Byte) :
    decodeOpcode (encode i ++ rest) = .ok (i, rest) := by
  obtain ⟨c, os, henc, row⟩ := opcodeRow_encode hop hwf
  rw [henc]
  exact (row rest).decodeOpcode_eq

/-! ## Fields as bit slices (R8) -/

theorem bits_eq_toNat_extractLsb' (b : Byte) (hi lo : Nat) : bits b hi lo = (b.extractLsb' lo (hi + 1 - lo)).toNat := by
  rw [bits, BitVec.extractLsb'_toNat, Nat.shiftRight_eq_div_pow]

theorem decodeIndex_eq (c : Byte) : decodeIndex c = .index (c.extractLsb' 0 6).toFin := by
  rw [decodeIndex, bits_eq_toNat_extractLsb']
  exact congrArg Instr.index (Fin.ext (Nat.mod_eq_of_lt (c.extractLsb' 0 6).isLt))

/-! ## The obligations -/

/-- Settles O1: the six opcodes are rows of rule R101, and the two pseudo-instructions are read back by their own parses. -/
theorem decodeOfEncodeIsTheInstruction : Obligations.DecodeOfEncodeIsTheInstruction := by
  intro i rest hwf
  cases i with
  | rgb | rgba | index | diff | luma | run => exact decodeOpcode_encode rfl hwf rest
  | header h => exact parseHeader_encode h rest
  | endMarker => simp only [Instr.position, decodeAt, encode, matchEndMarker_append]

/-- Settles O3: the decoder's tests and fields, each field read as a slice. -/
theorem controlByteSelectsKindAndFields : Obligations.ControlByteSelectsKindAndFields := by
  intro c o1 o2 o3 o4
  simp only [decodeOpcode, decodeRgb, decodeRgba, decodeLuma, decodeIndex_eq, decodeDiff, decodeRun,
    bits_eq_toNat_extractLsb', ← BitVec.toNat_inj, BitVec.reduceToNat]

/-- Settles O5: closed words, run through the decoder. -/
theorem writtenOutWordsDecode : Obligations.WrittenOutWordsDecode := by
  unfold Obligations.WrittenOutWordsDecode
  decide

end Sys2Proof

namespace Sys2Proof.Machine

/-! ## The hash (R147) -/

/-- The hash depends on the weighted sum modulo 64 alone. -/
theorem pixelHash_congr {p q : Pixel} (h : hashSum p % 64 = hashSum q % 64) : pixelHash p = pixelHash q := Fin.ext h

theorem toNat_add_64_mod_64 (v : Byte) : (v + 64).toNat % 64 = v.toNat % 64 := by
  simp only [BitVec.toNat_add, BitVec.reduceToNat]
  omega

/-- Settles O10: a channel counts in the sum modulo 64 alone, and 64 divides every power of two from `2 ^ 6` on. -/
theorem hashIgnoresMultiplesOf64AndWrapping : Obligations.HashIgnoresMultiplesOf64AndWrapping := by
  refine ⟨by decide, by decide, fun p => ?_, fun p w hw => Nat.mod_mod_of_dvd _ (Nat.pow_dvd_pow 2 hw)⟩
  have hr := toNat_add_64_mod_64 p.r; have hg := toNat_add_64_mod_64 p.g
  have hb := toNat_add_64_mod_64 p.b; have ha := toNat_add_64_mod_64 p.a
  refine ⟨pixelHash_congr ?_, pixelHash_congr ?_, pixelHash_congr ?_, pixelHash_congr ?_⟩ <;>
    simp only [hashSum] <;> omega

/-! ## The layouts (R67, R71) -/

/-- The packed word is the big-endian word of the four channels. -/
theorem packPixel_eq_be32 (p : Pixel) : packPixel p = be32 p.r p.g p.b p.a := rfl

theorem be32Bytes_packPixel (p : Pixel) : be32Bytes (packPixel p) = pixelBytes p := by
  rw [packPixel_eq_be32, be32Bytes_be32, pixelBytes]

/-- Settles O55: the packed word's four bytes are the channels, and the grid position is division with remainder. -/
theorem pixelLayoutsRoundTrip : Obligations.PixelLayoutsRoundTrip := by
  refine ⟨fun p => ?_, fun width k hw => ⟨?_, Nat.mod_lt k hw⟩⟩
  · have hbytes := be32Bytes_packPixel p
    simp only [be32Bytes, pixelBytes, List.cons.injEq, and_true] at hbytes
    obtain ⟨hr, hg, hb, ha⟩ := hbytes
    refine ⟨?_, hr, hg, hb, ha, (be32Bytes_packPixel p).symm⟩
    rw [unpackPixel, hr, hg, hb, ha]
  · exact Nat.div_add_mod' k width

end Sys2Proof.Machine
end

section
/-! The memory family (20_memory.md): what a contiguous memory reads, the piece of a range that was read, and the
operations of the two spaces. -/

namespace Sys2Proof.Machine

section
variable {α : Type}

/-- A memory that lists the addresses from `k` on is the memory of its values. -/
theorem Memory.eq_ofList_of_keys {m : Memory α} {k : Nat} (h : m.map Prod.fst = List.range' k m.length) :
    m = Memory.ofList k (m.map Prod.snd) := by
  induction m generalizing k with
  | nil => rfl
  | cons c t ih =>
    obtain ⟨a, v⟩ := c
    rw [List.length_cons, List.range'_succ, List.map_cons, List.cons_eq_cons] at h
    obtain ⟨rfl, ht⟩ := h
    exact congrArg _ (ih ht)

/-- A contiguous memory holds its entry `a` at address `a`. -/
theorem Memory.read_of_contiguous {m : Memory α} (h : Memory.contiguous m) (a : Nat) :
    Memory.read m a = m[a]?.map Prod.snd := by
  rw [Memory.eq_ofList_of_keys (h.trans List.range_eq_range'), Memory.read_ofList, if_pos (Nat.zero_le a), Nat.sub_zero,
    ← Memory.eq_ofList_of_keys (h.trans List.range_eq_range'), List.getElem?_map]

/-- The address of entry `a` of a contiguous memory is `a`. -/
theorem Memory.getElem?_of_contiguous {m : Memory α} (h : Memory.contiguous m) {a : Nat} (ha : a < m.length) :
    ∃ v, m[a]? = some (a, v) := by
  refine ⟨m[a].2, ?_⟩
  have hkey : (m.map Prod.fst)[a]? = some a := by rw [h, List.getElem?_range ha]
  rw [List.getElem?_map, List.getElem?_eq_getElem ha, Option.map_some, Option.some_inj] at hkey
  rw [List.getElem?_eq_getElem ha, Option.some_inj]
  exact Prod.ext hkey rfl

/-- A range with a cell that holds nothing is not read. -/
theorem Memory.readRange_eq_none {m : Memory α} {a n k : Nat} (hk : k < n) (h : Memory.read m (a + k) = none) :
    Memory.readRange m a n = none := by
  cases hr : Memory.readRange m a n with
  | none => rfl
  | some vs =>
    obtain ⟨hlen, hcell⟩ := Memory.readRange_some hr
    have := List.getElem?_eq_none_iff.1 ((hcell k hk).symm.trans h)
    omega

/-- A range of a contiguous memory is read where the memory is long enough. -/
theorem Memory.readRange_of_contiguous {m : Memory α} (h : Memory.contiguous m) {a n : Nat} (hn : a + n ≤ m.length) :
    Memory.readRange m a n = some (((m.map Prod.snd).drop a).take n) := by
  have hlen : (((m.map Prod.snd).drop a).take n).length = n := by
    rw [List.length_take, List.length_drop, List.length_map]
    omega
  have hr := Memory.readRange_eq (m := m) (a := a) (vs := ((m.map Prod.snd).drop a).take n) (fun k hk => by
    rw [Memory.read_of_contiguous h, List.getElem?_take_of_lt (by omega), List.getElem?_drop, List.getElem?_map])
  rwa [hlen] at hr

/-- A range of a contiguous memory that was read lies below the memory's size. -/
theorem Memory.le_length_of_readRange {m : Memory α} (h : Memory.contiguous m) {a n : Nat} {vs : List α} (hn : 1 ≤ n)
    (hr : Memory.readRange m a n = some vs) : a + n ≤ m.length := by
  by_contra hlong
  have hlast : Memory.read m (a + (n - 1)) = none := by
    rw [Memory.read_of_contiguous h, List.getElem?_eq_none (by omega), Option.map_none]
  rw [Memory.readRange_eq_none (by omega) hlast] at hr
  cases hr

/-- What a range begins with is itself a range. -/
theorem Memory.readRange_of_append {m : Memory α} {a n : Nat} {us ws : List α}
    (h : Memory.readRange m a n = some (us ++ ws)) :
    Memory.readRange m a us.length = some us ∧ Memory.readRange m (a + us.length) ws.length = some ws := by
  obtain ⟨hlen, _⟩ := Memory.readRange_some h
  rw [← hlen, List.length_append] at h
  obtain ⟨hu, hw⟩ := Memory.readRange_split h
  rw [List.take_left] at hu
  rw [List.drop_left] at hw
  exact ⟨hu, hw⟩

/-- A range shifted into a longer one that was read. -/
theorem Memory.readRange_drop {m : Memory α} {a n k : Nat} {vs : List α} (hk : k ≤ n)
    (h : Memory.readRange m a n = some vs) : Memory.readRange m (a + k) (n - k) = some (vs.drop k) := by
  rw [← Nat.add_sub_cancel' hk] at h
  exact (Memory.readRange_split h).2

end

/-! ## The obligations -/

/-- Settles O6: a range of a contiguous memory is the slice of its values, and past its size a cell is missing. -/
theorem memReadDeliversExactlyTheInput : Obligations.MemReadDeliversExactlyTheInput := by
  intro s a n hc hn
  refine ⟨fun hle => ?_, fun hlt => ?_⟩
  · have hr := Memory.readRange_of_contiguous hc hle
    obtain ⟨hlen, hcell⟩ := Memory.readRange_some hr
    refine ⟨_, hr, hlen, fun k hk => ?_⟩
    obtain ⟨b, hb⟩ := Memory.getElem?_of_contiguous hc (a := a + k) (Nat.lt_of_lt_of_le (by omega) hle)
    refine ⟨b, hb, ?_⟩
    rw [← hcell k hk, Memory.read_of_contiguous hc, hb, Option.map_some]
  · cases hr : s.memRead a n with
    | none => rfl
    | some bs => exact absurd (Memory.le_length_of_readRange hc hn hr) (Nat.not_le.2 hlt)

/-- Settles O7: a fetch follows what the read answers, and a peek is the read. -/
theorem fetchConsumesAndPeekDoesNot : Obligations.FetchConsumesAndPeekDoesNot := fun _ _ =>
  ⟨fun _ h => ⟨State.fetch_of_memRead h, h⟩, fun h => ⟨State.fetch_of_memRead_none h, h⟩⟩

theorem State.memWrite_of_room {s : State} {m : Memory Pixel} {k n : Nat} (hpix : s.pix = some m) (hroom : k + n ≤ s.total)
    (v : Pixel) : s.memWrite k n v = .next (s.setPix (some (Memory.writeRun m v k n))) := by
  simp only [State.memWrite, hpix, if_pos hroom]

theorem State.memWrite_of_outside {s : State} {k n : Nat} (h : s.pix = none ∨ s.total < k + n) (v : Pixel) :
    s.memWrite k n v = .fault .noOutputCell := by
  cases hpix : s.pix with
  | none => simp only [State.memWrite, hpix]
  | some m =>
    have hout : ¬ k + n ≤ s.total := Nat.not_le.2 (h.resolve_left (by simp [hpix]))
    simp only [State.memWrite, hpix, if_neg hout]

/-- Settles O8: the two answers of a store, and the cells of a run of writes. -/
theorem memWriteSetsExactlyItsCells : Obligations.MemWriteSetsExactlyItsCells := fun _ k n v =>
  ⟨fun m hpix hroom => ⟨Memory.writeRun m v k n, State.memWrite_of_room hpix hroom v, Memory.read_writeRun m v k n⟩,
    fun h => State.memWrite_of_outside h v⟩

end Sys2Proof.Machine
end

section
/-! The fetch of a loop iteration, told once: what stands at `pc` decides it. And the steps that follow from it, of HEADER,
of the allocation step, of END, and of an opcode on a full grid (40_header.md, 46_decode_loop.md). -/

namespace Sys2Proof

section
variable {c : Byte} {os rest : List Byte} {i : Instr}

/-- The bytes a row leaves over come last; without them it is the same row. -/
theorem OpcodeRow.exists_append (h : OpcodeRow c os i rest) : ∃ ops, os = ops ++ rest ∧ OpcodeRow c ops i [] := by
  cases h with
  | index range => exact ⟨[], rfl, .index range⟩
  | diff range => exact ⟨[], rfl, .diff range⟩
  | luma range => exact ⟨[_], rfl, .luma range⟩
  | run range => exact ⟨[], rfl, .run range⟩
  | rgb range => exact ⟨[_, _, _], rfl, .rgb range⟩
  | rgba range => exact ⟨[_, _, _, _], rfl, .rgba range⟩

theorem operandCount_le (c : Byte) : operandCount c ≤ 4 := by
  unfold operandCount
  split
  · decide
  · split
    · decide
    · split <;> decide

/-- A control byte with enough bytes behind it begins a row (R141). -/
theorem exists_opcodeRow (h : operandCount c ≤ os.length) : ∃ i rest, OpcodeRow c os i rest := by
  cases hd : decodeOpcode (c :: os) with
  | ok r => exact ⟨r.1, r.2, opcodeRow_of_decodeOpcode hd⟩
  | error e => exact absurd h (Nat.not_le.2 (decodeOpcode_cons_eq_error hd).1)

/-- The bytes of LUMA (R98): the tag 10 and green, then red and blue relative to it. -/
theorem opcodeRow_luma (gg : BitVec 6) (rr bb : BitVec 4) (rest : List Byte) :
    OpcodeRow ((0b10 : BitVec 2) ++ gg) ((rr ++ bb) :: rest)
      (.luma (gg.toNat - 32) (rr.toNat - 8) (bb.toNat - 8)) rest := by
  have hctl : ((0b10 : BitVec 2) ++ gg).toNat = 128 + gg.toNat := by rw [toNat_append_eq_mul_add]; rfl
  have hop : (rr ++ bb).toNat = rr.toNat * 16 + bb.toNat := toNat_append_eq_mul_add rr bb
  have hinstr : Instr.luma ((bits ((0b10 : BitVec 2) ++ gg) 5 0 : Int) - 32) ((bits (rr ++ bb) 7 4 : Int) - 8)
      ((bits (rr ++ bb) 3 0 : Int) - 8) = .luma (gg.toNat - 32) (rr.toNat - 8) (bb.toNat - 8) := by
    rw [bits_5_0, bits_7_4, bits_3_0, hctl, hop]
    congr 2 <;> omega
  rw [← hinstr]
  exact .luma (by omega)

/-- Where the marker is due, eight bytes are it or begin an opcode. -/
theorem decodeAt_markerDue {bs : List Byte} (h : 8 ≤ bs.length) : decodeAt .markerDue bs =
    if bs.take 8 = Config.endMarker then .ok (.endMarker, bs.drop 8) else decodeOpcode bs := by
  have hlong : ¬ bs.length < 8 := Nat.not_lt.2 h
  by_cases hm : bs.take 8 = Config.endMarker
  · simp only [decodeAt, matchEndMarker, if_neg hlong, if_pos hm]
  · simp only [decodeAt, matchEndMarker, if_neg hlong, if_neg hm]

/-- While pixels are missing the marker is eight INDEX opcodes (R104). -/
theorem decodeOpcode_endMarker_drop : ∀ k < 8, decodeOpcode (Config.endMarker.drop k) =
    .ok (.index (if k = 7 then 1 else 0), Config.endMarker.drop (k + 1)) := by decide

end

end Sys2Proof

namespace Sys2Proof.Machine

open Sys2Proof.Safety

section
variable {s : State} {i : Instr} {c : Byte} {os rest : List Byte}

/-! ## The fetch of an opcode (R140) -/

theorem State.fetchOpcode_of_opcode_missing (hread : s.memRead s.pc 1 = none) : s.fetchOpcode = .raised s .truncOpcode := by
  simp only [State.fetchOpcode, State.fetch_of_memRead_none hread]

theorem State.fetchOpcode_of_opcodeRow (row : OpcodeRow c os i rest) (hread : s.memRead s.pc i.length = some (c :: os)) :
    s.fetchOpcode = .instr i :=
  State.fetchOpcode_of_memRead row.decodeOpcode_eq (by rwa [row.one_add_operandCount])

/-- Where an opcode stands at the beginning of longer bytes, it stands there alone. -/
theorem State.memRead_of_opcodeRow {n : Nat} (row : OpcodeRow c os i rest) (hread : s.memRead s.pc n = some (c :: os)) :
    ∃ ops, OpcodeRow c ops i [] ∧ s.memRead s.pc i.length = some (c :: ops) := by
  obtain ⟨ops, rfl, row'⟩ := row.exists_append
  have hlen : (c :: ops).length = i.length := by simpa using row'.length_eq
  rw [← List.cons_append] at hread
  exact ⟨ops, row', hlen ▸ (Memory.readRange_of_append hread).1⟩

/-- Dispatch reads what the decoder reads, however many bytes lie before it. -/
theorem State.fetchOpcode_of_decodeOpcode {n : Nat} {bs : List Byte} (hread : s.memRead s.pc n = some bs)
    (hdec : decodeOpcode bs = .ok (i, rest)) : s.fetchOpcode = .instr i := by
  cases bs with
  | nil => cases hdec
  | cons c os =>
    obtain ⟨ops, row, hops⟩ := State.memRead_of_opcodeRow (opcodeRow_of_decodeOpcode hdec) hread
    exact State.fetchOpcode_of_opcodeRow row hops

/-- A control byte and the operand bytes it announces are an opcode. -/
theorem State.exists_opcodeRow_of_operands (hctl : s.memRead s.pc 1 = some [c])
    (hops : s.memRead (s.pc + 1) (operandCount c) = some os) :
    ∃ i, OpcodeRow c os i [] ∧ s.memRead s.pc i.length = some (c :: os) := by
  obtain ⟨hlen, _⟩ := Memory.readRange_some hops
  obtain ⟨i, rest, row⟩ := exists_opcodeRow hlen.ge
  have hcount := row.one_add_operandCount
  have hrest : rest = [] := List.length_eq_zero_iff.1 (by have := row.length_eq; omega)
  subst hrest
  exact ⟨i, row, hcount ▸ Memory.readRange_append hctl hops⟩

/-! ## The fetch of an iteration (R201, R202) -/

theorem State.fetchIteration_of_cursor_ne (hne : s.cursor ≠ s.total) : s.fetchIteration = s.fetchOpcode := by
  rw [State.fetchIteration, if_neg (by simpa [State.atTotal] using hne)]

theorem State.fetchIteration_of_marker_missing (hfull : s.cursor = s.total) (hread : s.memRead s.pc 8 = none) :
    s.fetchIteration = .raised s .truncEndmark := by
  simp only [State.fetchIteration, State.atTotal, hfull, beq_self_eq_true, if_true, State.peek, hread]

/-- The comparison of the eight bytes present. -/
theorem State.fetchIteration_of_full {m : List Byte} (hfull : s.cursor = s.total) (hread : s.memRead s.pc 8 = some m) :
    s.fetchIteration = if m = Config.endMarker then .instr .endMarker else s.fetchOpcode := by
  have hmatch := matchEndMarker_eight (Memory.readRange_some hread).1
  simp only [State.fetchIteration, State.atTotal, hfull, beq_self_eq_true, if_true, State.peek, hread, hmatch]
  by_cases hm : m = Config.endMarker
  · simp only [if_pos hm]
  · simp only [if_neg hm]

/-- Everything the fetch of an iteration can find. -/
inductive LoopFetch (s : State) : Fetched → Prop where
  | markerMissing (full : s.cursor = s.total) (read : s.memRead s.pc 8 = none) : LoopFetch s (.raised s .truncEndmark)
  | marker (full : s.cursor = s.total) (read : s.memRead s.pc 8 = some Config.endMarker) : LoopFetch s (.instr .endMarker)
  | opcodeMissing (missing : s.cursor ≠ s.total) (read : s.memRead s.pc 1 = none) : LoopFetch s (.raised s .truncOpcode)
  | operandsMissing (missing : s.cursor ≠ s.total) {c : Byte} (control : s.memRead s.pc 1 = some [c])
      (read : s.memRead (s.pc + 1) (operandCount c) = none) : LoopFetch s (.raised (s.advance 1) .truncOperand)
  | opcode {c : Byte} {os : List Byte} {i : Instr} (row : OpcodeRow c os i [])
      (read : s.memRead s.pc i.length = some (c :: os))
      (noMarker : s.cursor = s.total → ∃ m, s.memRead s.pc 8 = some m ∧ m ≠ Config.endMarker) : LoopFetch s (.instr i)

/-- Eight bytes are more than an opcode needs, so a full grid's fetch misses at most the marker (R204). -/
theorem State.exists_opcodeRow_of_eight {m : List Byte} (hread : s.memRead s.pc 8 = some m) :
    ∃ c os i, OpcodeRow c os i [] ∧ s.memRead s.pc i.length = some (c :: os) := by
  have hlen := (Memory.readRange_some hread).1
  cases m with
  | nil => cases hlen
  | cons c cs =>
    have hle := operandCount_le c
    rw [List.length_cons] at hlen
    obtain ⟨i, rest, row⟩ := exists_opcodeRow (c := c) (os := cs) (by omega)
    exact ⟨c, _, i, (State.memRead_of_opcodeRow row hread).choose_spec⟩

theorem State.loopFetch (s : State) : LoopFetch s s.fetchIteration := by
  by_cases hfull : s.cursor = s.total
  · cases hread : s.memRead s.pc 8 with
    | none => rw [State.fetchIteration_of_marker_missing hfull hread]; exact .markerMissing hfull hread
    | some m =>
      rw [State.fetchIteration_of_full hfull hread]
      split
      · subst m; exact .marker hfull hread
      · obtain ⟨c, os, i, row, hrow⟩ := State.exists_opcodeRow_of_eight hread
        rw [State.fetchOpcode_of_opcodeRow row hrow]
        exact .opcode row hrow fun _ => ⟨m, hread, ‹_›⟩
  · rw [State.fetchIteration_of_cursor_ne hfull]
    cases hctl : s.memRead s.pc 1 with
    | none => rw [State.fetchOpcode_of_opcode_missing hctl]; exact .opcodeMissing hfull hctl
    | some bs =>
      obtain ⟨c, rfl⟩ := List.length_eq_one_iff.1 (Memory.readRange_some hctl).1
      cases hops : s.memRead (s.pc + 1) (operandCount c) with
      | none => rw [State.fetchOpcode_of_operands_missing hctl hops]; exact .operandsMissing hfull hctl hops
      | some os =>
        obtain ⟨i, row, hrow⟩ := State.exists_opcodeRow_of_operands hctl hops
        rw [State.fetchOpcode_of_opcodeRow row hrow]
        exact .opcode row hrow fun h => absurd h hfull

/-- And what it finds is told by the bytes alone. -/
theorem LoopFetch.fetchIteration_eq {f : Fetched} (h : LoopFetch s f) : s.fetchIteration = f := by
  cases h with
  | markerMissing full read => exact State.fetchIteration_of_marker_missing full read
  | marker full read => rw [State.fetchIteration_of_full full read, if_pos rfl]
  | opcodeMissing missing read =>
    rw [State.fetchIteration_of_cursor_ne missing, State.fetchOpcode_of_opcode_missing read]
  | operandsMissing missing control read =>
    rw [State.fetchIteration_of_cursor_ne missing, State.fetchOpcode_of_operands_missing control read]
  | opcode row read noMarker =>
    by_cases hfull : s.cursor = s.total
    · obtain ⟨m, hm, hne⟩ := noMarker hfull
      rw [State.fetchIteration_of_full hfull hm, if_neg hne, State.fetchOpcode_of_opcodeRow row read]
    · rw [State.fetchIteration_of_cursor_ne hfull, State.fetchOpcode_of_opcodeRow row read]

/-! ## The step by its FSM state (R200) -/

theorem step_of_done (hf : s.fsm = .done) : step s = .fault .callDone := by simp only [step, hf]

theorem step_of_failed (hf : s.fsm = .failed) : step s = .fault .callFailed := by simp only [step, hf]

theorem step_of_allocating (hf : s.fsm = .allocatingGrid) : step s = s.allocate := by simp only [step, hf]

theorem step_of_loop (hf : s.fsm = .decodingOpcodes) : step s = s.fetchIteration.run (fun i => exec i s) := by
  simp only [step, hf]

/-! ## The header step (R120, R122) -/

theorem State.fetchHeader_of_memRead {h : Header} (hread : s.memRead s.pc 14 = some (encode (.header h))) :
    s.fetchHeader = .instr (.header h) := by
  simp only [State.fetchHeader, State.fetch_of_memRead hread, parseHeader_encode_self, Fetched.ofDecoded]

theorem step_of_header {h : Header} (hf : s.fsm = .readingHeader)
    (hread : s.memRead s.pc 14 = some (encode (.header h))) : step s = exec (.header h) s := by
  simp only [step, hf, State.fetchHeader_of_memRead hread, Fetched.run]

/-- Fourteen bytes are always a header. -/
theorem exists_header_of_length {bs : List Byte} (h : bs.length = 14) : ∃ hd, bs = encode (.header hd) := by
  match bs, h with
  | [m0, m1, m2, m3, w0, w1, w2, w3, h0, h1, h2, h3, ch, cs], _ =>
    exact ⟨⟨be32 m0 m1 m2 m3, be32 w0 w1 w2 w3, be32 h0 h1 h2 h3, ch, cs⟩, by simp only [encode, be32Bytes_be32]; rfl⟩

/-- The fetch of the header step finds a header, or too few bytes. -/
theorem State.fetchHeader_cases (s : State) :
    (s.memRead s.pc 14 = none ∧ s.fetchHeader = .raised s .truncHeader) ∨
    ∃ h, s.memRead s.pc 14 = some (encode (.header h)) ∧ s.fetchHeader = .instr (.header h) := by
  cases hread : s.memRead s.pc 14 with
  | none => exact .inl ⟨rfl, by simp only [State.fetchHeader, State.fetch_of_memRead_none hread]⟩
  | some bs =>
    obtain ⟨h, rfl⟩ := exists_header_of_length (Memory.readRange_some hread).1
    exact .inr ⟨h, rfl, State.fetchHeader_of_memRead hread⟩

theorem State.memRead_of_fetchHeader {h : Header} (hx : s.fetchHeader = .instr (.header h)) :
    s.memRead s.pc 14 = some (encode (.header h)) := by
  obtain ⟨_, hnone⟩ | ⟨_, hread, hx'⟩ := s.fetchHeader_cases
  · cases hnone.symm.trans hx
  · cases hx'.symm.trans hx; exact hread

theorem headerFailure_eq_none_iff {h : Header} : headerFailure h = none ↔
    h.magic = Config.magic ∧ (h.channels = 3 ∨ h.channels = 4) ∧ (h.colorspace = 0 ∨ h.colorspace = 1) := by
  unfold headerFailure
  split_ifs with hm hc hs
  · exact iff_of_false (by simp) fun hv => hm hv.1
  · exact iff_of_false (by simp) fun hv => hv.2.1.elim hc.1 hc.2
  · exact iff_of_false (by simp) fun hv => hv.2.2.elim hs.1 hs.2
  · exact iff_of_true rfl ⟨not_not.1 hm, by tauto, by tauto⟩

/-- The check of rule R122 is that no test fails. -/
theorem header_isValid_iff {h : Header} : h.isValid = true ↔ headerFailure h = none := by
  simp only [headerFailure_eq_none_iff, Header.isValid, Bool.and_eq_true, Bool.or_eq_true, beq_iff_eq, and_assoc]

theorem exec_header_of_valid {h : Header} (hf : s.fsm = .readingHeader) (hv : headerFailure h = none) :
    exec (.header h) s = .next (((s.advance 14).setHeader h).setFsm .allocatingGrid) := by
  show execHeader h s = _
  rw [execHeader, State.whenFsm_pos hf, hv]

theorem exec_header_of_invalid {h : Header} {d : Detail} (hf : s.fsm = .readingHeader) (hv : headerFailure h = some d) :
    exec (.header h) s = .next (afterFailure s 14 d.category d) := by
  show execHeader h s = _
  rw [execHeader, State.whenFsm_pos hf, hv]
  rfl

/-! ## The allocation step (R125) -/

theorem step_of_fits (hf : s.fsm = .allocatingGrid) (hfits : s.width.toNat * s.height.toNat ≤ s.maxPixels) :
    step s = .next (((s.setTotal (s.width.toNat * s.height.toNat)).setPix (some [])).setFsm .decodingOpcodes) := by
  rw [step_of_allocating hf, State.allocate, State.whenFsm_pos hf, if_neg (Nat.not_lt.2 hfits)]

theorem step_of_large (hf : s.fsm = .allocatingGrid) (hlarge : s.maxPixels < s.width.toNat * s.height.toNat) :
    step s = .next ((s.setTotal (s.width.toNat * s.height.toNat)).raise .alloc) := by
  rw [step_of_allocating hf, State.allocate, State.whenFsm_pos hf, if_pos hlarge]

/-! ## END (R202, R203) -/

theorem exec_endMarker_of_full (hf : s.fsm = .decodingOpcodes) (hfull : s.cursor = s.total) :
    exec .endMarker s = .next (s.setFsm .done) := by
  show execEndMarker s = _
  rw [execEndMarker, State.whenFsm_pos hf, if_pos (by simpa [State.atTotal] using hfull)]

theorem exec_endMarker_of_cursor_ne (hf : s.fsm = .decodingOpcodes) (hne : s.cursor ≠ s.total) :
    exec .endMarker s = exec (.index 0) s := by
  show execEndMarker s = execIndex 0 s
  rw [execEndMarker, execIndex, State.whenFsm_pos hf, State.whenFsm_pos hf, if_neg (by simpa [State.atTotal] using hne)]

theorem step_of_marker (hf : s.fsm = .decodingOpcodes) (hfull : s.cursor = s.total)
    (hread : s.memRead s.pc 8 = some Config.endMarker) : step s = .next (s.setFsm .done) := by
  rw [step_of_loop hf, State.fetchIteration_of_full hfull hread, if_pos rfl, Fetched.run, exec_endMarker_of_full hf hfull]

/-! ## An opcode on a full grid (R149, R151, R190) -/

/-- The detail an opcode fails with for want of room. -/
def overflowDetail : Instr → Detail
  | .run _ => .runOverflow
  | _ => .pixelOverflow

theorem exec_opcode_of_full (hop : i.isOpcode = true) (hwf : i.wf = true) (hf : s.fsm = .decodingOpcodes)
    (hfull : s.total ≤ s.cursor) : exec i s = .next (afterFailure s i.length .invalid (overflowDetail i)) := by
  cases i with
  | rgb | rgba | index | diff | luma => exact exec_pixel_of_full rfl hf hfull
  | run count =>
    have hpos := pixelCount_pos hop hwf
    exact exec_run_of_overflow hf (Nat.lt_of_le_of_lt hfull (Nat.lt_add_of_pos_right hpos))
  | header | endMarker => cases hop

/-- RUN's range of control bytes decides the detail (R204). -/
theorem overflowDetail_of_opcodeRow (row : OpcodeRow c os i rest) :
    overflowDetail i = if 0xC0 ≤ c.toNat ∧ c.toNat ≤ 0xFD then .runOverflow else .pixelOverflow := by
  cases row with
  | run range => rw [if_pos range]; rfl
  | index range | diff range | luma range | rgb range | rgba range => rw [if_neg (by omega)]; rfl

end

/-! ## The obligations -/

/-- Settles O17: LUMA is a single-pixel opcode whose pixel is `last` moved by the deltas; its bytes are a row of two
bytes. -/
theorem lumaAddsGreenRelativeDeltas : Obligations.LumaAddsGreenRelativeDeltas := by
  intro dg drg dbg s hf
  have hp : ∀ dg drg dbg, s.pixelFor (.luma dg drg dbg) = some (lumaPixel s.last dg drg dbg) := fun _ _ _ => rfl
  refine ⟨fun m hroom hpix => exec_pixel_of_room (hp dg drg dbg) hf hroom hpix, fun m gg rr bb hroom hpix hread => ?_,
    fun hfull => exec_pixel_of_full (hp dg drg dbg) hf hfull, fun gg hne hctl hops => ?_⟩
  · exact (step_eq_exec_of_opcodeRow (opcodeRow_luma gg rr bb []) hf hroom.ne hread).trans
      (exec_pixel_of_room (hp _ _ _) hf hroom hpix)
  · have hcount : operandCount ((0b10 : BitVec 2) ++ gg) = 1 :=
      Nat.add_left_cancel (opcodeRow_luma gg 0 0 []).one_add_operandCount
    exact step_of_operands_missing hf hne hctl (by rwa [hcount])

/-- Settles O19: the header's three tests in their order. -/
theorem headerIsCheckedAndStored : Obligations.HeaderIsCheckedAndStored := by
  intro h s hf
  refine ⟨fun hv => exec_header_of_valid hf (headerFailure_eq_none_iff.2 hv), fun hm => ?_, fun hm hc3 hc4 => ?_,
    fun hm hc hs0 hs1 => ?_⟩
  · exact exec_header_of_invalid hf (if_pos hm)
  · exact exec_header_of_invalid hf ((if_neg (not_not.2 hm)).trans (if_pos ⟨hc3, hc4⟩))
  · have hc' : ¬ (h.channels ≠ 3 ∧ h.channels ≠ 4) := fun hn => hc.elim hn.1 hn.2
    exact exec_header_of_invalid hf ((if_neg (not_not.2 hm)).trans ((if_neg hc').trans (if_pos ⟨hs0, hs1⟩)))

/-- Settles O21: END on a full grid, by itself and from the marker's bytes, and END as INDEX 0 before. -/
theorem endMarkerEndsTheCall : Obligations.EndMarkerEndsTheCall := fun _ hf =>
  ⟨fun hfull => ⟨exec_endMarker_of_full hf hfull, fun hread => step_of_marker hf hfull hread⟩,
    fun hne => exec_endMarker_of_cursor_ne hf hne⟩

/-- Settles O27: at each place of the stream the fetch finds what the decoder reads. -/
theorem stepRunsTheDecodedInstruction : Obligations.StepRunsTheDecodedInstruction := by
  intro s bs rest n i hread
  refine ⟨fun hf hdec => ?_, fun hf hne hdec => ?_, fun hf hfull hn hdec => ?_⟩
  · obtain ⟨h, rfl, rfl⟩ := parseHeader_eq_ok hdec
    exact step_of_header hf (Memory.readRange_of_append hread).1
  · rw [step_of_cursor_ne hf hne, State.fetchOpcode_of_decodeOpcode hread hdec, Fetched.run]
  · have hlen := (Memory.readRange_some hread).1
    have hread8 : s.memRead s.pc 8 = some (bs.take 8) := by
      rw [← Nat.add_sub_cancel' hn] at hread
      exact (Memory.readRange_split hread).1
    rw [decodeAt_markerDue (hlen ▸ hn)] at hdec
    rw [step_of_loop hf, State.fetchIteration_of_full hfull hread8]
    split at hdec
    · cases hdec
      rw [if_pos ‹_›, Fetched.run]
    · rw [if_neg ‹_›, State.fetchOpcode_of_decodeOpcode hread hdec, Fetched.run]

/-- Settles O31: the two reads of dispatch in their order, and every fetched opcode overflows a full grid when it runs. -/
theorem missingOperandsComeBeforeOverflow : Obligations.MissingOperandsComeBeforeOverflow := by
  intro s c hctl
  refine ⟨fun hops => State.fetchOpcode_of_operands_missing hctl hops, fun os hops => ?_⟩
  obtain ⟨i, row, hread⟩ := State.exists_opcodeRow_of_operands hctl hops
  refine ⟨i, State.fetchOpcode_of_opcodeRow row hread, row.isOpcode_eq, row.wf_eq, fun hf hfull => ?_⟩
  refine ⟨overflowDetail i, exec_opcode_of_full row.isOpcode_eq row.wf_eq hf hfull, ?_⟩
  cases i with
  | run => exact .inr rfl
  | _ => exact .inl rfl

/-- Settles O32: the two answers of the allocation step, and a product with zero. -/
theorem allocationTakesTheExactProduct : Obligations.AllocationTakesTheExactProduct := by
  intro s hf
  refine ⟨fun hfits => step_of_fits hf hfits, fun hlarge => step_of_large hf hlarge, fun hzero => ?_⟩
  have hprod : s.width.toNat * s.height.toNat = 0 := by
    obtain h | h := hzero <;> simp [h]
  rw [step_of_fits hf (hprod ▸ Nat.zero_le _), hprod]
  rfl

/-- Settles O33: eight bytes that are not the marker hold a whole opcode, and it overflows. -/
theorem wrongEndMarkerFailsInvalid : Obligations.WrongEndMarkerFailsInvalid := by
  intro s c cs hf hfull hread (hne : c :: cs ≠ Config.endMarker)
  have hlen := (Memory.readRange_some hread).1
  have hle := operandCount_le c
  obtain ⟨i, rest, row⟩ := exists_opcodeRow (c := c) (os := cs) (by rw [List.length_cons] at hlen; omega)
  have hstep : step s = exec i s := by
    rw [step_of_loop hf, State.fetchIteration_of_full hfull hread, if_neg hne,
      State.fetchOpcode_of_decodeOpcode hread row.decodeOpcode_eq, Fetched.run]
  refine ⟨i, rest, row.decodeOpcode_eq, hstep, ?_⟩
  rw [hstep, exec_opcode_of_full row.isOpcode_eq row.wf_eq hf hfull.ge, overflowDetail_of_opcodeRow row]

/-- Settles O34: byte `k` of the marker begins an INDEX, told by decoding the marker from each of its bytes on. -/
theorem markerBytesRunAsIndexWhilePixelsMissing : Obligations.MarkerBytesRunAsIndexWhilePixelsMissing := by
  intro s k hf hroom hk hle hread
  have hrest : s.memRead s.pc (8 - k) = some (Config.endMarker.drop k) := by
    have := Memory.readRange_drop hk.le hread
    rwa [Nat.sub_add_cancel hle] at this
  rw [step_of_cursor_ne hf hroom.ne, State.fetchOpcode_of_decodeOpcode hrest (decodeOpcode_endMarker_drop k hk), Fetched.run]

end Sys2Proof.Machine
end

section
/-! Frames and failures (20_memory.md section 3, 60_exceptions.md): what an opcode that completed has done, what a step
that failed has done, and the transitions of rule R200. -/

namespace Sys2Proof.Machine

open Sys2Proof.Safety

/-! ## The other fields of what the two write paths leave -/

section
variable (s : State) (m : Memory Pixel) (p : Pixel) (n : Nat)

@[simp] theorem State.stored_last : (s.stored p m).last = p := rfl
@[simp] theorem State.stored_x : (s.stored p m).x = s.x.set (pixelHash p) p := rfl
@[simp] theorem State.stored_width : (s.stored p m).width = s.width := rfl
@[simp] theorem State.stored_height : (s.stored p m).height = s.height := rfl
@[simp] theorem State.stored_channels : (s.stored p m).channels = s.channels := rfl
@[simp] theorem State.stored_colorspace : (s.stored p m).colorspace = s.colorspace := rfl
@[simp] theorem State.stored_status : (s.stored p m).status = s.status := rfl
@[simp] theorem State.stored_pix : (s.stored p m).pix = some (Memory.write m s.cursor p) := rfl

theorem State.slot_stored (h : Fin 64) : (s.stored p m).slot h = if h = pixelHash p then p else s.slot h :=
  State.slot_cachePixel p s h

@[simp] theorem State.storedRun_last : (s.storedRun n m).last = s.last := rfl
@[simp] theorem State.storedRun_x : (s.storedRun n m).x = s.x.set (pixelHash s.last) s.last := rfl
@[simp] theorem State.storedRun_width : (s.storedRun n m).width = s.width := rfl
@[simp] theorem State.storedRun_height : (s.storedRun n m).height = s.height := rfl
@[simp] theorem State.storedRun_channels : (s.storedRun n m).channels = s.channels := rfl
@[simp] theorem State.storedRun_colorspace : (s.storedRun n m).colorspace = s.colorspace := rfl
@[simp] theorem State.storedRun_status : (s.storedRun n m).status = s.status := rfl
@[simp] theorem State.storedRun_pix : (s.storedRun n m).pix = some (Memory.writeRun m s.last s.cursor n) := rfl

theorem State.slot_storedRun (h : Fin 64) :
    (s.storedRun n m).slot h = if h = pixelHash s.last then s.last else s.slot h :=
  State.slot_cachePixel s.last s h

end

section
variable {i : Instr} {s t : State}

/-! ## An opcode that completed -/

/-- The two ways an opcode completes (R149, R190). -/
inductive OpcodeCompleted (i : Instr) (s t : State) : Prop where
  | pixel (p : Pixel) (m : Memory Pixel) (fsm : s.fsm = .decodingOpcodes) (emits : s.pixelFor i = some p)
      (room : s.cursor < s.total) (pix : s.pix = some m) (eq : t = (s.advance i.length).stored p m)
  | run (count : Nat) (m : Memory Pixel) (fsm : s.fsm = .decodingOpcodes) (instr : i = .run count)
      (room : s.cursor + count ≤ s.total) (pix : s.pix = some m) (eq : t = (s.advance 1).storedRun count m)

theorem ExecEffect.opcodeCompleted (h : ExecEffect i s t) (hop : i.isOpcode = true) (hf : t.fsm ≠ .failed) :
    OpcodeCompleted i s t := by
  cases h with
  | pixel n p m fsm instr room pix eq =>
    obtain ⟨hp, rfl⟩ | ⟨rfl, _⟩ := instr
    · exact .pixel p m fsm hp room pix eq
    · cases hop
  | run count m fsm instr room pix eq => exact .run count m fsm instr room pix eq
  | overflow _ _ _ _ eq | runOverflow _ _ _ _ eq | badHeader _ _ _ _ _ eq => exact absurd (by simp [eq]) hf
  | header _ _ instr _ _ | ended _ instr _ _ => subst instr; cases hop

/-- From `s` to `t` nothing changed but the pixel state: the cache, `last`, `pc`, CURSOR and PIX. -/
structure SameButPixels (s t : State) : Prop where
  fsm_eq : t.fsm = s.fsm
  width_eq : t.width = s.width
  height_eq : t.height = s.height
  channels_eq : t.channels = s.channels
  colorspace_eq : t.colorspace = s.colorspace
  total_eq : t.total = s.total
  status_eq : t.status = s.status
  input_eq : t.input = s.input
  maxPixels_eq : t.maxPixels = s.maxPixels

theorem SameButPixels.refl (s : State) : SameButPixels s s := ⟨rfl, rfl, rfl, rfl, rfl, rfl, rfl, rfl, rfl⟩

theorem SameButPixels.trans {u : State} (h : SameButPixels s t) (h' : SameButPixels t u) : SameButPixels s u where
  fsm_eq := h'.fsm_eq.trans h.fsm_eq
  width_eq := h'.width_eq.trans h.width_eq
  height_eq := h'.height_eq.trans h.height_eq
  channels_eq := h'.channels_eq.trans h.channels_eq
  colorspace_eq := h'.colorspace_eq.trans h.colorspace_eq
  total_eq := h'.total_eq.trans h.total_eq
  status_eq := h'.status_eq.trans h.status_eq
  input_eq := h'.input_eq.trans h.input_eq
  maxPixels_eq := h'.maxPixels_eq.trans h.maxPixels_eq

theorem State.sameButPixels_stored (s : State) (n : Nat) (p : Pixel) (m : Memory Pixel) :
    SameButPixels s ((s.advance n).stored p m) := ⟨rfl, rfl, rfl, rfl, rfl, rfl, rfl, rfl, rfl⟩

theorem State.sameButPixels_storedRun (s : State) (n count : Nat) (m : Memory Pixel) :
    SameButPixels s ((s.advance n).storedRun count m) := ⟨rfl, rfl, rfl, rfl, rfl, rfl, rfl, rfl, rfl⟩

theorem OpcodeCompleted.sameButPixels (h : OpcodeCompleted i s t) : SameButPixels s t := by
  cases h with
  | pixel p m _ _ _ _ eq => exact eq ▸ s.sameButPixels_stored _ p m
  | run count m _ _ _ _ eq => exact eq ▸ s.sameButPixels_storedRun _ count m

/-! ## A step that failed -/

/-- The details a step can raise in each state (60_exceptions.md section 1). -/
def raisable : Fsm → List Detail
  | .readingHeader => [.truncHeader, .hdrMagic, .hdrChannels, .hdrColorspace]
  | .allocatingGrid => [.alloc]
  | .decodingOpcodes => [.truncEndmark, .truncOpcode, .truncOperand, .pixelOverflow, .runOverflow]
  | .done => []
  | .failed => []

/-- Every detail raised stands for a failure. -/
theorem category_ne_none_of_raisable : ∀ {f : Fsm} {d : Detail}, d ∈ raisable f → d.category ≠ .none := by
  intro f d
  cases f <;> cases d <;> decide

theorem headerFailure_mem_raisable {h : Header} {d : Detail} (hv : headerFailure h = some d) :
    d ∈ raisable .readingHeader := by
  unfold headerFailure at hv
  split_ifs at hv <;> cases hv <;> decide

/-- What a failure leaves: `d` raised, `pc` moved by at most 14, and TOTAL as the allocation step may have set it. -/
def FailedWith (s t : State) (d : Detail) : Prop :=
  ∃ n ≤ 14, t = ((s.advance n).setTotal t.total).raise d

theorem failedWith_raise {n : Nat} (hn : n ≤ 14) (d : Detail) : FailedWith s ((s.advance n).raise d) d := ⟨n, hn, rfl⟩

theorem length_le_longestInstr (i : Instr) : i.length ≤ longestInstr := by
  cases i <;> simp only [Instr.length, longestInstr] <;> omega

/-- An instruction fails with a detail that its FSM state admits. -/
theorem ExecEffect.failed (h : ExecEffect i s t) (hf : t.fsm = .failed) : ∃ d ∈ raisable s.fsm, FailedWith s t d := by
  cases h with
  | pixel _ _ _ fsm _ _ _ eq | run _ _ fsm _ _ _ eq => simp [eq, fsm] at hf
  | header _ _ _ _ eq | ended _ _ _ eq => simp [eq] at hf
  | overflow n fsm instr full eq =>
    have hn : n ≤ 14 := by
      obtain ⟨_, rfl⟩ | ⟨_, _, rfl⟩ := instr
      · exact length_le_longestInstr i
      · decide
    exact ⟨_, by rw [fsm]; decide, eq ▸ failedWith_raise hn _⟩
  | runOverflow count fsm instr full eq => exact ⟨_, by rw [fsm]; decide, eq ▸ failedWith_raise (by decide) _⟩
  | badHeader h d fsm instr invalid eq =>
    exact ⟨d, by rw [fsm]; exact headerFailure_mem_raisable invalid, eq ▸ failedWith_raise (by decide) d⟩

/-- A fetch fails with a detail that its FSM state admits, at most the control byte consumed. -/
theorem State.fetchHeader_raises {u : State} {d : Detail} (h : s.fetchHeader = .raised u d) :
    d ∈ raisable .readingHeader ∧ u = s := by
  obtain ⟨_, he⟩ | ⟨_, _, he⟩ := s.fetchHeader_cases
  · cases he.symm.trans h; exact ⟨by decide, rfl⟩
  · cases he.symm.trans h

theorem State.fetchIteration_raises {u : State} {d : Detail} (h : s.fetchIteration = .raised u d) :
    d ∈ raisable .decodingOpcodes ∧ ∃ n ≤ 1, u = s.advance n := by
  have hfetch := s.loopFetch
  rw [h] at hfetch
  cases hfetch with
  | markerMissing | opcodeMissing => exact ⟨by decide, 0, by decide, rfl⟩
  | operandsMissing => exact ⟨by decide, 1, by decide, rfl⟩

theorem StepEffect.failed (h : StepEffect s t) (hf : t.fsm = .failed) : ∃ d ∈ raisable s.fsm, FailedWith s t d := by
  cases h with
  | ran _ _ effect => exact effect.failed hf
  | fetchFailed n d fetched eq =>
    obtain ⟨fsm, hx⟩ | ⟨fsm, hx⟩ := fetched
    · obtain ⟨hd, hu⟩ := State.fetchHeader_raises hx
      exact ⟨d, fsm ▸ hd, by rw [eq, hu]; exact failedWith_raise (n := 0) (by decide) d⟩
    · obtain ⟨hd, k, hk, hu⟩ := State.fetchIteration_raises hx
      exact ⟨d, fsm ▸ hd, by rw [eq, hu]; exact failedWith_raise (by omega) d⟩
  | allocated _ _ eq => simp [eq] at hf
  | allocFailed fsm _ eq => exact ⟨.alloc, by rw [fsm]; decide, 0, by decide, by rw [eq]; rfl⟩

theorem FailedWith.status_eq {d : Detail} (h : FailedWith s t d) : t.status = ⟨d.category, d⟩ := by
  obtain ⟨_, _, eq⟩ := h
  rw [eq]
  rfl

/-! ## Transitions (R200) -/

theorem ExecEffect.fsm_of_header (h : ExecEffect i s t) (hs : s.fsm = .readingHeader) :
    t.fsm = .allocatingGrid ∨ t.fsm = .failed := by
  cases h with
  | header _ _ _ _ eq => exact .inl (by simp [eq])
  | badHeader _ _ _ _ _ eq => exact .inr (by simp [eq])
  | pixel _ _ _ fsm | overflow _ fsm | run _ _ fsm | runOverflow _ fsm | ended fsm => cases hs.symm.trans fsm

theorem ExecEffect.fsm_of_loop (h : ExecEffect i s t) (hs : s.fsm = .decodingOpcodes) :
    t.fsm = .decodingOpcodes ∨ t.fsm = .done ∨ t.fsm = .failed := by
  cases h with
  | pixel _ _ _ _ _ _ _ eq | run _ _ _ _ _ _ eq => exact .inl (by simp [eq, hs])
  | ended _ _ _ eq => exact .inr (.inl (by simp [eq]))
  | overflow _ _ _ _ eq | runOverflow _ _ _ _ eq => exact .inr (.inr (by simp [eq]))
  | header _ fsm | badHeader _ _ fsm => cases hs.symm.trans fsm

/-- The states a step leads to, by the state it starts in. -/
theorem StepEffect.fsm (h : StepEffect s t) :
    (s.fsm = .readingHeader ∧ (t.fsm = .allocatingGrid ∨ t.fsm = .failed)) ∨
    (s.fsm = .allocatingGrid ∧ (t.fsm = .decodingOpcodes ∨ t.fsm = .failed)) ∨
    (s.fsm = .decodingOpcodes ∧ (t.fsm = .decodingOpcodes ∨ t.fsm = .done ∨ t.fsm = .failed)) := by
  cases h with
  | ran _ fetched effect =>
    obtain ⟨hs, _⟩ | ⟨hs, _⟩ := fetched
    · exact .inl ⟨hs, effect.fsm_of_header hs⟩
    · exact .inr (.inr ⟨hs, effect.fsm_of_loop hs⟩)
  | fetchFailed _ _ fetched eq =>
    obtain ⟨hs, _⟩ | ⟨hs, _⟩ := fetched
    · exact .inl ⟨hs, .inr (by simp [eq])⟩
    · exact .inr (.inr ⟨hs, .inr (.inr (by simp [eq]))⟩)
  | allocated hs _ eq => exact .inr (.inl ⟨hs, .inl (by simp [eq])⟩)
  | allocFailed hs _ eq => exact .inr (.inl ⟨hs, .inr (by simp [eq])⟩)

theorem StepEffect.category_of_failed (h : StepEffect s t) (ht : t.fsm = .failed) (hs : s.fsm ≠ .allocatingGrid) :
    t.status.category = .truncated ∨ t.status.category = .invalid := by
  obtain ⟨d, hd, hw⟩ := h.failed ht
  rw [hw.status_eq]
  revert hd hs
  cases s.fsm <;> cases d <;> decide

theorem StepEffect.category_of_allocFailed (h : StepEffect s t) (ht : t.fsm = .failed) (hs : s.fsm = .allocatingGrid) :
    t.status.category = .allocationFailure := by
  obtain ⟨d, hd, hw⟩ := h.failed ht
  rw [hs, raisable, List.mem_singleton] at hd
  rw [hw.status_eq, hd, Detail.category]

/-! ## The header registers (R27) -/

/-- From `s` to `t` the header registers are unchanged. -/
def SameHeader (s t : State) : Prop :=
  t.width = s.width ∧ t.height = s.height ∧ t.channels = s.channels ∧ t.colorspace = s.colorspace

/-- An instruction writes the header registers where it is a header that passes the check, and nowhere else. -/
theorem ExecEffect.header_or_same (h : ExecEffect i s t) :
    (s.fsm = .readingHeader ∧ t.fsm = .allocatingGrid ∧ ∃ hd, i = .header hd ∧ headerFailure hd = none ∧
      t = ((s.advance 14).setHeader hd).setFsm .allocatingGrid) ∨
    SameHeader s t ∧ t.fsm ≠ .allocatingGrid := by
  cases h with
  | header hd fsm instr valid eq => exact .inl ⟨fsm, by simp [eq], hd, instr, valid, eq⟩
  | pixel _ _ _ fsm _ _ _ eq | run _ _ fsm _ _ _ eq => exact .inr ⟨by simp [SameHeader, eq], by simp [eq, fsm]⟩
  | overflow _ _ _ _ eq | runOverflow _ _ _ _ eq | badHeader _ _ _ _ _ eq | ended _ _ _ eq =>
    exact .inr ⟨by simp [SameHeader, eq], by simp [eq]⟩

/-- A step writes the header registers where its fetch found a header that passes the check, and nowhere else. -/
theorem StepEffect.header_or_same (h : StepEffect s t) :
    (s.fsm = .readingHeader ∧ t.fsm = .allocatingGrid ∧ ∃ hd, s.fetchHeader = .instr (.header hd) ∧
      headerFailure hd = none ∧ t = ((s.advance 14).setHeader hd).setFsm .allocatingGrid) ∨
    SameHeader s t ∧ t.fsm ≠ .allocatingGrid := by
  cases h with
  | ran i fetched effect =>
    obtain ⟨hs, ht, hd, rfl, hv, eq⟩ | hsame := effect.header_or_same
    · obtain ⟨_, hx⟩ | ⟨hs', _⟩ := fetched
      · exact .inl ⟨hs, ht, hd, hx, hv, eq⟩
      · cases hs.symm.trans hs'
    · exact .inr hsame
  | fetchFailed _ _ _ eq | allocated _ _ eq | allocFailed _ _ eq => exact .inr ⟨by simp [SameHeader, eq], by simp [eq]⟩

end

/-! ## The obligations -/

/-- Settles O22: one pixel was stored, so one cache slot and one output cell were written. -/
theorem singlePixelOpcodesChangeOnlyTheirOwn : Obligations.SinglePixelOpcodesChangeOnlyTheirOwn := by
  intro i s t hop hrun h hf
  have hdone := (exec_effect h).opcodeCompleted hop hf
  obtain ⟨hfsm, hwidth, hheight, hchannels, hcolorspace, htotal, hstatus, hinput, hmax⟩ := hdone.sameButPixels
  cases hdone with
  | run count _ _ instr => exact absurd instr (hrun count)
  | pixel p m _ _ _ pix eq =>
    refine ⟨fun h hh => ?_, hfsm, hwidth, hheight, hchannels, hcolorspace, htotal, hstatus, hmax,
      fun a => by rw [hinput], m, Memory.write m s.cursor p, pix, by simp [eq], fun a ha => ?_⟩
    · rw [eq] at hh ⊢
      exact (State.slot_stored _ m p h).trans (if_neg hh)
    · rw [Memory.read_write, if_neg ha]

/-- Settles O23: the run was stored, so one cache slot and the run's cells were written. -/
theorem runChangesOnlyItsOwn : Obligations.RunChangesOnlyItsOwn := by
  intro count s t h hf
  have hdone := (exec_effect h).opcodeCompleted rfl hf
  obtain ⟨hfsm, hwidth, hheight, hchannels, hcolorspace, htotal, hstatus, hinput, hmax⟩ := hdone.sameButPixels
  cases hdone with
  | pixel _ _ _ emits => cases emits
  | run _ m _ instr _ pix eq =>
    cases instr
    refine ⟨by simp [eq], fun h hh => ?_, hfsm, hwidth, hheight, hchannels, hcolorspace, htotal, hstatus, hmax,
      fun a => by rw [hinput], m, Memory.writeRun m s.last s.cursor count, pix, by simp [eq], fun a ha => ?_⟩
    · rw [eq]
      exact (State.slot_storedRun _ m count h).trans (if_neg hh)
    · rw [Memory.read_writeRun, if_neg ha]

/-- Settles O24: the three effects, each with its own FSM state. -/
theorem headerAllocationAndEndTouchNoPixelState : Obligations.HeaderAllocationAndEndTouchNoPixelState := by
  intro s t h hexec hf
  obtain h1 | h1 | ⟨h1, hfull⟩ := hexec
  · cases exec_effect h1 with
    | header hd fsm _ _ eq => simp [eq, fsm]
    | badHeader _ _ _ _ _ eq => exact absurd (by simp [eq]) hf
    | pixel _ _ _ _ instr | overflow _ _ instr => simp [State.pixelFor] at instr
    | run _ _ _ instr | runOverflow _ _ instr | ended _ instr => cases instr
  · obtain ⟨fsm, _⟩ := State.whenFsm_next h1
    cases step_effect ((step_of_allocating fsm).trans h1) with
    | allocated _ _ eq => simp [eq, fsm]
    | fetchFailed _ _ _ eq | allocFailed _ _ eq => exact absurd (by simp [eq]) hf
    | ran _ fetched => simp [fsm] at fetched
  · cases exec_effect h1 with
    | ended fsm _ _ eq => simp [eq]
    | overflow _ _ _ _ eq => exact absurd (by simp [eq]) hf
    | pixel _ _ _ _ instr => simp [State.pixelFor, hfull] at instr
    | run _ _ _ instr | runOverflow _ _ instr | header _ _ instr | badHeader _ _ _ instr => cases instr

/-- Settles O25: a failing step has raised a detail of its state, and `raise` touches neither pixel state nor header. -/
theorem failuresArePrecise : Obligations.FailuresArePrecise := by
  intro s t h hf
  obtain ⟨d, hd, n, hn, eq⟩ := (step_effect h).failed hf
  rw [eq]
  simpa using ⟨hn, category_ne_none_of_raisable hd⟩

/-- Settles O26: the alpha of the pixel each opcode emits. -/
theorem alphaIsReplacedOrCopiedWhole : Obligations.AlphaIsReplacedOrCopiedWhole := by
  intro i s t hop h hf
  cases (exec_effect h).opcodeCompleted hop hf with
  | run count m _ instr _ _ eq => subst instr; simp [eq]
  | pixel p m _ emits _ _ eq =>
    have hlast : t.last = p := by simp [eq]
    rw [hlast]
    cases i with
    | rgb | rgba | index | diff | luma => cases emits; simp [rgbPixel, movedPixel, lumaPixel]
    | run | header | endMarker => cases emits

/-- Settles O28: the states of `StepEffect.fsm`, and the categories of the details each state raises. -/
theorem transitionsFollowTheTable : Obligations.TransitionsFollowTheTable := by
  refine ⟨fun s t h => ?_, fun _ => step_of_done, fun _ => step_of_failed, fun _ _ _ => rfl⟩
  obtain ⟨hs, ht⟩ | ⟨hs, ht⟩ | ⟨hs, ht⟩ := (step_effect h).fsm
  · exact .inl ⟨hs, ht.imp_right fun hf => ⟨hf, (step_effect h).category_of_failed hf (by simp [hs])⟩⟩
  · exact .inr (.inl ⟨hs, ht.imp_right fun hf => ⟨hf, (step_effect h).category_of_allocFailed hf hs⟩⟩)
  · exact .inr (.inr ⟨hs, ht.imp_right (.imp_right fun hf =>
      ⟨hf, (step_effect h).category_of_failed hf (by simp [hs])⟩)⟩)

/-- Settles O29: the details each state admits, and the overflow of an opcode by its kind. -/
theorem eachStepRaisesOnlyItsOwnDetails : Obligations.EachStepRaisesOnlyItsOwnDetails := by
  refine ⟨fun s t h hf => ?_, fun i s t h hf => ?_⟩
  · obtain ⟨d, hd, hw⟩ := (step_effect h).failed hf
    rw [hw.status_eq]
    refine ⟨fun hs => ?_, fun hs => ?_, fun hs => ?_⟩ <;> rw [hs] at hd <;> simpa [raisable] using hd
  · cases exec_effect h with
    | pixel _ _ _ fsm _ _ _ eq | run _ _ fsm _ _ _ eq => simp [eq, fsm] at hf
    | header _ _ _ _ eq | ended _ _ _ eq => simp [eq] at hf
    | overflow n _ instr _ eq =>
      refine ⟨fun _ _ => by simp [eq], fun k hk => ?_⟩
      simp [hk, State.pixelFor] at instr
    | runOverflow count _ instr _ eq => exact ⟨fun _ hrun => absurd instr (hrun count), fun _ _ => by simp [eq]⟩
    | badHeader hd d _ instr => simp [instr, Instr.isOpcode]

/-- Settles O38: `StepEffect.header_or_same`, and the check the header passed. -/
theorem headerRegistersAreWrittenOnce : Obligations.HeaderRegistersAreWrittenOnce := by
  refine ⟨fun s t h hnot => ?_, fun s t h hs ht => ?_⟩
  · obtain ⟨hs, ht, _⟩ | ⟨hsame, _⟩ := (step_effect h).header_or_same
    · exact absurd ⟨hs, ht⟩ hnot
    · exact hsame
  · obtain ⟨_, _, hd, hx, hv, eq⟩ | ⟨_, hne⟩ := (step_effect h).header_or_same
    · obtain ⟨_, hch, hcs⟩ := headerFailure_eq_none_iff.1 hv
      rw [eq]
      exact ⟨hd, _, State.memRead_of_fetchHeader hx, parseHeader_encode_self hd, header_isValid_iff.2 hv, rfl, rfl, rfl,
        rfl, hch, hcs⟩
    · exact absurd ht hne

end Sys2Proof.Machine
end

section
/-! The pixels a stream stands for and the invariant of a call (10_state.md sections 1, 7 and 8): `last` and the cache as
functions of the pixels emitted, what each operation appends, and the invariant kept by every step. -/

namespace Sys2Proof.Safety

open Sys2Proof.Machine

/-! ## `last` and a slot, told of the pixels emitted (R22, R23) -/

section
variable (ps : List Pixel)

@[simp] theorem lastOf_append_singleton (p : Pixel) : lastOf (ps ++ [p]) = p := by
  simp [lastOf]

theorem slotOf_append_singleton (p : Pixel) (h : Fin 64) :
    slotOf (ps ++ [p]) h = if h = pixelHash p then p else slotOf ps h := by
  by_cases hh : h = pixelHash p
  · simp [slotOf, hh]
  · simp [slotOf, hh, Ne.symm hh]

/-- `last` is cached (R37 (d)): it is the newest pixel of its hash, or the reset pixel. -/
theorem slotOf_pixelHash_lastOf : slotOf ps (pixelHash (lastOf ps)) = lastOf ps := by
  obtain rfl | ⟨qs, p, rfl⟩ := List.eq_nil_or_concat' ps
  · rfl
  · rw [lastOf_append_singleton, slotOf_append_singleton, if_pos rfl]

/-- Repeating `last` leaves `last`. -/
theorem lastOf_append_replicate (n : Nat) : lastOf (ps ++ List.replicate n (lastOf ps)) = lastOf ps := by
  cases n with
  | zero => simp
  | succ n => rw [List.replicate_succ', ← List.append_assoc, lastOf_append_singleton]

/-- Repeating `last` leaves every slot, since `last` is cached. -/
theorem slotOf_append_replicate (n : Nat) (h : Fin 64) :
    slotOf (ps ++ List.replicate n (lastOf ps)) h = slotOf ps h := by
  induction n with
  | zero => simp
  | succ n ih =>
    rw [List.replicate_succ', ← List.append_assoc, slotOf_append_singleton, ih]
    split
    · subst h; exact (slotOf_pixelHash_lastOf ps).symm
    · rfl

variable {ps}

theorem pixelHash_slotOf {h : Fin 64} (hw : ∃ p ∈ ps, pixelHash p = h) : pixelHash (slotOf ps h) = h := by
  obtain ⟨p, hp, hh⟩ := hw
  cases hfind : ps.reverse.find? (fun p => pixelHash p == h) with
  | none => exact absurd (beq_iff_eq.2 hh) (by simpa using List.find?_eq_none.1 hfind p (by simpa using hp))
  | some q =>
    rw [slotOf, hfind, Option.getD_some]
    simpa using List.find?_some hfind

theorem slotOf_of_unwritten {h : Fin 64} (hn : ∀ p ∈ ps, pixelHash p ≠ h) : slotOf ps h = Config.cacheInit := by
  have hfind : ps.reverse.find? (fun p => pixelHash p == h) = none := by simpa [List.find?_eq_none] using hn
  rw [slotOf, hfind, Option.getD_none]

end

/-! ## What an operation appends (R149, R190) -/

section
variable {s t : State} {ps : List Pixel} {m : Memory Pixel} {i : Instr}

theorem Holds.stored (h : Holds s ps) (hpix : s.pix = some m) (n : Nat) (p : Pixel) :
    Holds ((s.advance n).stored p m) (ps ++ [p]) where
  pix_eq := by
    have hm : m = Memory.ofList 0 ps := Option.some_inj.1 (hpix.symm.trans h.pix_eq)
    have happend := Memory.write_ofList 0 ps p
    rw [Nat.zero_add] at happend
    simp [hm, h.cursor_eq, happend]
  cursor_eq := by simp [h.cursor_eq]
  last_eq := by simp
  slot_eq := fun k => by
    rw [State.slot_stored, State.slot_advance, slotOf_append_singleton, h.slot_eq]

theorem Holds.storedRun (h : Holds s ps) (hpix : s.pix = some m) (n count : Nat) :
    Holds ((s.advance n).storedRun count m) (ps ++ List.replicate count (lastOf ps)) where
  pix_eq := by
    have hm : m = Memory.ofList 0 ps := Option.some_inj.1 (hpix.symm.trans h.pix_eq)
    have happend := Memory.writeRun_ofList 0 ps (lastOf ps) count
    rw [Nat.zero_add] at happend
    simp [hm, h.cursor_eq, h.last_eq, happend]
  cursor_eq := by simp [h.cursor_eq]
  last_eq := by rw [State.storedRun_last, State.advance_last, lastOf_append_replicate, h.last_eq]
  slot_eq := fun k => by
    rw [State.slot_storedRun, State.slot_advance, State.advance_last, slotOf_append_replicate, h.slot_eq, h.last_eq]
    split
    · subst k; exact (slotOf_pixelHash_lastOf ps).symm
    · rfl

/-- The pixel of a single-pixel opcode, read from the state, is the one told of the pixels emitted. -/
theorem Holds.emitted_eq (h : Holds s ps) {p : Pixel} (hp : s.pixelFor i = some p) : emitted ps i = [p] := by
  cases i with
  | rgb | rgba | index | diff | luma => cases hp; simp [emitted, rgbPixel, lumaPixel, h.last_eq, h.slot_eq]
  | run | header | endMarker => cases hp

/-- An opcode that completed appended its pixels. -/
theorem Holds.completed (h : Holds s ps) (hdone : OpcodeCompleted i s t) : Holds t (ps ++ emitted ps i) := by
  cases hdone with
  | pixel p m _ emits _ pix eq => rw [eq, h.emitted_eq emits]; exact h.stored pix i.length p
  | run count m _ instr _ pix eq => rw [eq, instr, emitted]; exact h.storedRun pix 1 count

/-- The FSM state is no part of the pixel state. -/
theorem Holds.setFsm (h : Holds s ps) (f : Fsm) : Holds (s.setFsm f) ps := ⟨h.pix_eq, h.cursor_eq, h.last_eq, h.slot_eq⟩

theorem Holds.last_cached (h : Holds s ps) : s.slot (pixelHash s.last) = s.last := by
  rw [h.slot_eq, h.last_eq, slotOf_pixelHash_lastOf]

/-! ## The invariant of a call -/

theorem inv_hostReset (s : State) (bytes : List Byte) (cap : Nat) : Inv (s.hostReset bytes cap) where
  status_pair := rfl
  failed_iff := iff_of_false (fun h => by cases h) (not_not.2 rfl)
  cursor_le := Nat.le_refl 0
  last_cached := State.reset_slot _
  before_grid := fun _ => ⟨rfl, rfl, rfl, rfl, State.reset_slot⟩
  header_valid := fun h => by obtain h | h | h := h <;> cases h
  grid := fun h => by obtain h | h := h <;> cases h
  total_eq := fun h => by obtain h | h := h <;> cases h
  done_full := fun h => by cases h
  released := fun h => by cases h

theorem Inv.cursor_eq_zero (inv : Inv s) (hf : s.fsm = .readingHeader ∨ s.fsm = .allocatingGrid) : s.cursor = 0 :=
  (inv.before_grid hf).2.cursor_eq

theorem Inv.category_eq_none (inv : Inv s) (hf : s.fsm ≠ .failed) : s.status.category = .none := by
  by_contra hne
  exact hf (inv.failed_iff.2 hne)

/-- A failure keeps the invariant, if TOTAL still bounds CURSOR. -/
theorem Inv.of_failedWith (inv : Inv s) {d : Detail} (hd : d ∈ raisable s.fsm) (h : FailedWith s t d)
    (hle : s.cursor ≤ t.total) : Inv t := by
  obtain ⟨n, _, eq⟩ := h
  generalize t.total = k at eq hle
  subst eq
  exact {
    status_pair := rfl
    failed_iff := iff_of_true rfl (category_ne_none_of_raisable hd)
    cursor_le := hle
    last_cached := inv.last_cached
    before_grid := by simp
    header_valid := by simp
    grid := by simp
    total_eq := by simp
    done_full := by simp
    released := fun _ => rfl }

theorem Inv.of_header (inv : Inv s) {hd : Header} (hf : s.fsm = .readingHeader) (hv : headerFailure hd = none) :
    Inv (((s.advance 14).setHeader hd).setFsm .allocatingGrid) where
  status_pair := inv.status_pair
  failed_iff := iff_of_false (by simp) (not_not.2 (inv.category_eq_none (by simp [hf])))
  cursor_le := inv.cursor_le
  last_cached := inv.last_cached
  before_grid := fun _ => by
    obtain ⟨hpix, _, hcursor, hlast, hslot⟩ := inv.before_grid (.inl hf)
    exact ⟨hpix, rfl, hcursor, hlast, hslot⟩
  header_valid := fun _ => (headerFailure_eq_none_iff.1 hv).2
  grid := by simp
  total_eq := by simp
  done_full := by simp
  released := by simp

/-- A grid just created holds no pixels (R125). -/
theorem Inv.holds_allocated (inv : Inv s) (hf : s.fsm = .allocatingGrid) (n : Nat) :
    Holds (((s.setTotal n).setPix (some [])).setFsm .decodingOpcodes) [] := by
  obtain ⟨_, _, hcursor, hlast, hslot⟩ := inv.before_grid (.inr hf)
  exact ⟨rfl, hcursor, hlast, hslot⟩

theorem Inv.of_allocated (inv : Inv s) (hf : s.fsm = .allocatingGrid)
    (hfits : s.width.toNat * s.height.toNat ≤ s.maxPixels) :
    Inv (((s.setTotal (s.width.toNat * s.height.toNat)).setPix (some [])).setFsm .decodingOpcodes) where
  status_pair := inv.status_pair
  failed_iff := iff_of_false (by simp) (not_not.2 (inv.category_eq_none (by simp [hf])))
  cursor_le := by simp [inv.cursor_eq_zero (.inr hf)]
  last_cached := inv.last_cached
  before_grid := by simp
  header_valid := fun _ => inv.header_valid (.inl hf)
  grid := fun _ => ⟨[], inv.holds_allocated hf _⟩
  total_eq := fun _ => ⟨rfl, hfits⟩
  done_full := by simp
  released := by simp

/-- In the loop a change of the pixel state keeps the invariant where the new state holds some pixels. -/
theorem Inv.of_holds (inv : Inv s) (hf : s.fsm = .decodingOpcodes) (same : SameButPixels s t) {ps : List Pixel}
    (hholds : Holds t ps) (hle : t.cursor ≤ t.total) : Inv t := by
  have ht : t.fsm = .decodingOpcodes := same.fsm_eq.trans hf
  exact {
    status_pair := by rw [same.status_eq]; exact inv.status_pair
    failed_iff := by rw [same.status_eq, same.fsm_eq]; exact inv.failed_iff
    cursor_le := hle
    last_cached := hholds.last_cached
    before_grid := by simp [ht]
    header_valid := fun _ => by rw [same.channels_eq, same.colorspace_eq]; exact inv.header_valid (.inr (.inl hf))
    grid := fun _ => ⟨ps, hholds⟩
    total_eq := fun _ => by
      rw [same.total_eq, same.width_eq, same.height_eq, same.maxPixels_eq]
      exact inv.total_eq (.inl hf)
    done_full := by simp [ht]
    released := by simp [ht] }

theorem Inv.of_ended (inv : Inv s) (hf : s.fsm = .decodingOpcodes) (hfull : s.cursor = s.total) :
    Inv (s.setFsm .done) where
  status_pair := inv.status_pair
  failed_iff := iff_of_false (by simp) (not_not.2 (inv.category_eq_none (by simp [hf])))
  cursor_le := inv.cursor_le
  last_cached := inv.last_cached
  before_grid := by simp
  header_valid := fun _ => inv.header_valid (.inr (.inl hf))
  grid := fun _ => (inv.grid (.inl hf)).imp fun _ h => h.setFsm .done
  total_eq := fun _ => inv.total_eq (.inl hf)
  done_full := fun _ => hfull
  released := by simp

end

end Sys2Proof.Safety

namespace Sys2Proof.Machine

open Sys2Proof.Safety

section
variable {s t : State} {i : Instr}

/-! ## A cache write that changes nothing -/

theorem State.cache_set_of_cached {p : Pixel} (h : s.slot (pixelHash p) = p) : s.x.set (pixelHash p) p = s.x := by
  have hset : s.x.set (pixelHash p) (s.slot (pixelHash p)) = s.x := Vector.set_getElem_self _
  rwa [h] at hset

/-! ## A run is that many emits (conflict C2) -/

theorem State.storedRun_one (s : State) (m : Memory Pixel) : s.storedRun 1 m = s.stored s.last m := rfl

theorem State.storedRun_succ (s : State) (m : Memory Pixel) (n : Nat) :
    s.storedRun (n + 1) m = (s.stored s.last m).storedRun n (Memory.write m s.cursor s.last) := by
  simp [State.storedRun, State.stored, State.setPix, State.addCursor, State.setLast, State.cachePixel, Memory.writeRun,
    Nat.add_assoc, Nat.add_comm 1 n]

/-- `f` folds `Emit` over the outcomes: it goes on from a next state and keeps a fault. -/
structure FoldsEmit (f : Outcome → Pixel → Outcome) : Prop where
  next : ∀ t p, f (.next t) p = t.emit p
  fault : ∀ r p, f (.fault r) p = .fault r

theorem FoldsEmit.foldl_fault {f : Outcome → Pixel → Outcome} (hf : FoldsEmit f) (r : Fault) (ps : List Pixel) :
    ps.foldl f (.fault r) = .fault r := by
  induction ps with
  | nil => rfl
  | cons p ps ih => rw [List.foldl_cons, hf.fault, ih]

theorem State.emitRun_of_room {m : Memory Pixel} {n : Nat} (hroom : s.cursor + n ≤ s.total) (hpix : s.pix = some m) :
    s.emitRun n = .next (s.storedRun n m) := by
  obtain ⟨hover, _⟩ | ⟨_, m', hm, he⟩ | ⟨_, hnone, _⟩ := s.emitRun_cases n
  · omega
  · cases hpix.symm.trans hm; exact he
  · cases hpix.symm.trans hnone

/-- Where the grid has the room but no output memory, both paths stop at the first store. -/
theorem State.emitRun_eq_foldl {f : Outcome → Pixel → Outcome} (hf : FoldsEmit f) {n : Nat} (hn : 1 ≤ n) :
    ∀ {s : State}, s.cursor + n ≤ s.total → s.emitRun n = (List.replicate n s.last).foldl f (.next s) := by
  induction n, hn using Nat.le_induction with
  | base =>
    intro s hroom
    rw [List.replicate_one, List.foldl_cons, List.foldl_nil, hf.next]
    obtain ⟨hfull, _⟩ | ⟨_, m, hm, he⟩ | ⟨_, hnone, he⟩ := s.emit_cases s.last
    · omega
    · rw [State.emitRun_of_room hroom hm, he, State.storedRun_one]
    · rw [he]
      obtain ⟨hover, _⟩ | ⟨_, _, hm, _⟩ | ⟨_, _, he'⟩ := s.emitRun_cases 1
      · omega
      · cases hnone.symm.trans hm
      · exact he'
  | succ n hn ih =>
    intro s hroom
    rw [List.replicate_succ, List.foldl_cons, hf.next]
    obtain ⟨hfull, _⟩ | ⟨_, m, hm, he⟩ | ⟨_, hnone, he⟩ := s.emit_cases s.last
    · omega
    · have hroom' : (s.stored s.last m).cursor + n ≤ (s.stored s.last m).total := by
        rw [State.stored_cursor, State.stored_total]
        omega
      rw [State.emitRun_of_room hroom hm, he, State.storedRun_succ, ← State.emitRun_of_room hroom' (State.stored_pix ..),
        ih hroom', State.stored_last]
    · rw [he, hf.foldl_fault]
      obtain ⟨hover, _⟩ | ⟨_, _, hm, _⟩ | ⟨_, _, he'⟩ := s.emitRun_cases (n + 1)
      · omega
      · cases hnone.symm.trans hm
      · exact he'

/-! ## The invariant, kept by every effect -/

/-- An instruction that does not fail keeps the invariant. -/
theorem ExecEffect.inv (h : ExecEffect i s t) (inv : Inv s) (ht : t.fsm ≠ .failed) : Inv t := by
  cases h with
  | pixel n p m fsm _ room pix eq =>
    obtain ⟨ps, hholds⟩ := inv.grid (.inl fsm)
    rw [eq]
    exact inv.of_holds fsm (s.sameButPixels_stored n p m) (hholds.stored pix n p) room
  | run count m fsm _ room pix eq =>
    obtain ⟨ps, hholds⟩ := inv.grid (.inl fsm)
    rw [eq]
    exact inv.of_holds fsm (s.sameButPixels_storedRun 1 count m) (hholds.storedRun pix 1 count) room
  | header hd fsm _ valid eq => rw [eq]; exact inv.of_header fsm valid
  | ended fsm _ full eq => rw [eq]; exact inv.of_ended fsm full
  | overflow _ _ _ _ eq | runOverflow _ _ _ _ eq | badHeader _ _ _ _ _ eq => exact absurd (by simp [eq]) ht

theorem StepEffect.inv (h : StepEffect s t) (inv : Inv s) : Inv t := by
  by_cases ht : t.fsm = .failed
  · obtain ⟨d, hd, hw⟩ := h.failed ht
    refine inv.of_failedWith hd hw ?_
    by_cases hs : s.fsm = .allocatingGrid
    · rw [inv.cursor_eq_zero (.inr hs)]; exact Nat.zero_le _
    · rw [h.total_eq hs]; exact inv.cursor_le
  · cases h with
    | ran _ _ effect => exact effect.inv inv ht
    | allocated fsm fits eq => rw [eq]; exact inv.of_allocated fsm fits
    | fetchFailed _ _ _ eq | allocFailed _ _ eq => exact absurd (by simp [eq]) ht

/-! ## The canonical form of the output memory -/

/-- The output memory, where there is one, is in canonical form: the second half of `MemoryCanonical`. -/
def PixCanonical (s : State) : Prop := ∀ m, s.pix = some m → Memory.wf m

theorem ExecEffect.pixCanonical (h : ExecEffect i s t) (hs : PixCanonical s) : PixCanonical t := by
  cases h with
  | pixel n p m _ _ _ pix eq =>
    intro m' hm'
    rw [eq] at hm'
    cases hm'
    exact Memory.wf_write (hs m pix) _ _
  | run count m _ _ _ pix eq =>
    intro m' hm'
    rw [eq] at hm'
    cases hm'
    exact Memory.wf_writeRun (hs m pix) _ _ _
  | header _ _ _ _ eq | ended _ _ _ eq => rw [eq]; exact hs
  | overflow _ _ _ _ eq | runOverflow _ _ _ _ eq | badHeader _ _ _ _ _ eq => intro m' hm'; simp [eq] at hm'

theorem StepEffect.pixCanonical (h : StepEffect s t) (hs : PixCanonical s) : PixCanonical t := by
  cases h with
  | ran _ _ effect => exact effect.pixCanonical hs
  | fetchFailed _ _ _ eq | allocFailed _ _ eq => intro m' hm'; simp [eq] at hm'
  | allocated _ _ eq =>
    intro m' hm'
    rw [eq] at hm'
    cases hm'
    exact List.Pairwise.nil

end

/-! ## The host's reads (R32) -/

theorem HostReg.validIn_of {r : HostReg} {f : Fsm} (h : f = .done ∨ r.number ≤ 2) : r.validIn f = true := by
  simpa [HostReg.validIn, or_comm] using h

/-- TOTAL is a product of two 32-bit words in `Done`, and the other registers have their own widths (R32). -/
theorem HostReg.value_lt {r : HostReg} {s : State} (inv : Inv s) (hv : r.validIn s.fsm = true) : r.value s < 2 ^ r.bits := by
  cases r with
  | fsm => cases h : s.fsm <;> simp [HostReg.value, HostReg.bits, Fsm.code, h]
  | category => cases h : s.status.category <;> simp [HostReg.value, HostReg.bits, Category.code, h]
  | detail => cases h : s.status.detail <;> simp [HostReg.value, HostReg.bits, Detail.code, h]
  | width => exact s.width.isLt
  | height => exact s.height.isLt
  | channels => exact s.channels.isLt
  | colorspace => exact s.colorspace.isLt
  | total =>
    have hd : s.fsm = .done := by simpa [HostReg.validIn, HostReg.number] using hv
    obtain ⟨htotal, _⟩ := inv.total_eq (.inr hd)
    have hprod : s.width.toNat * s.height.toNat < 2 ^ 32 * 2 ^ 32 := Nat.mul_lt_mul'' s.width.isLt s.height.isLt
    rw [HostReg.value, htotal]
    exact hprod

/-! ## The obligations -/

/-- Settles O40: every field of the reset state, and the input as the memory of the host's bytes. -/
theorem hostResetGivesTheResetState : Obligations.HostResetGivesTheResetState := fun _ bytes _ =>
  ⟨State.reset_slot, rfl, rfl, rfl, rfl, rfl, rfl, Memory.length_ofList 0 bytes, Memory.contiguous_ofList bytes,
    fun a => (Memory.read_ofList 0 a bytes).trans (if_pos (Nat.zero_le a)), rfl⟩

/-- Settles O41: reset is a host's reset with no input. -/
theorem invariantHoldsAfterReset : Obligations.InvariantHoldsAfterReset :=
  ⟨inv_hostReset State.reset [] Config.resetMaxPixels, inv_hostReset⟩

/-- Settles O42: `StepEffect.inv`, which goes through the effects a step can have. -/
theorem stepKeepsTheCallInvariant : Obligations.StepKeepsTheCallInvariant := fun _ _ inv h => (step_effect h).inv inv

/-- Settles O43: the input is never written, and writes keep the output's form. -/
theorem stepKeepsMemoriesCanonical : Obligations.StepKeepsMemoriesCanonical := by
  refine ⟨fun s t ⟨hin, hpix⟩ h => ⟨?_, (step_effect h).pixCanonical hpix⟩, List.Pairwise.nil, fun m hm => by cases hm⟩
  rw [(step_effect h).parameters_eq.1]
  exact hin

/-- Settles O45: the invariant says that `last` is cached, so RUN's cache write is of what the slot holds. -/
theorem runNeverChangesTheCache : Obligations.RunNeverChangesTheCache := by
  intro count s t inv h
  cases exec_effect h with
  | run _ _ _ _ _ _ eq => rw [eq, State.storedRun_x]; exact State.cache_set_of_cached inv.last_cached
  | runOverflow _ _ _ _ eq => rw [eq]; rfl
  | pixel _ _ _ _ instr | overflow _ _ instr => simp [State.pixelFor] at instr
  | header _ _ instr | badHeader _ _ _ instr | ended _ instr => cases instr

/-- Settles O46: a written slot holds a pixel of its own hash; an unwritten one holds the reset pixel, whose hash is 53. -/
theorem indexOfAnUnwrittenSlotEvicts53 : Obligations.IndexOfAnUnwrittenSlotEvicts53 := by
  intro idx s t ps _ hholds h hf
  cases (exec_effect h).opcodeCompleted rfl hf with
  | run _ _ _ instr => cases instr
  | pixel p m _ emits _ _ eq =>
    have hp : p = s.slot idx := (Option.some_inj.1 emits).symm
    refine ⟨fun hw => ?_, fun hn => ?_⟩
    · have hhash : pixelHash p = idx := by rw [hp, hholds.slot_eq, pixelHash_slotOf hw]
      rw [eq, State.stored_x]
      exact State.cache_set_of_cached (by rw [State.slot_advance, hhash, hp])
    · have hinit : p = ⟨0, 0, 0, 255⟩ := by rw [hp, hholds.slot_eq, slotOf_of_unwritten hn]; rfl
      have hhash : pixelHash p = 53 := by rw [hinit]; decide
      have hslot : ∀ k, t.slot k = if k = 53 then p else s.slot k := fun k => by
        rw [eq, State.slot_stored, hhash, State.slot_advance]
      exact ⟨by rw [eq, State.stored_last, hinit], by rw [hslot, if_pos rfl, hinit], fun k hk => by rw [hslot, if_neg hk]⟩

/-- Settles O47: by induction on the count, one emit first. -/
theorem runEqualsRepeatedEmits : Obligations.RunEqualsRepeatedEmits := fun _ _ hn hroom =>
  State.emitRun_eq_foldl ⟨fun _ _ => rfl, fun _ _ => rfl⟩ hn hroom

/-- Settles O49: `Holds.completed`. -/
theorem opcodeAppendsItsPixels : Obligations.OpcodeAppendsItsPixels := fun _ _ _ _ hop hholds h hf =>
  hholds.completed ((exec_effect h).opcodeCompleted hop hf)

/-- Settles O54: a valid read is the register, which fits its width, and a free value is cut to it. -/
theorem hostReadsFitTheirRegisters : Obligations.HostReadsFitTheirRegisters := by
  refine ⟨fun s r draw h => if_pos (HostReg.validIn_of h), fun s r draw inv => ?_⟩
  unfold State.hostRead
  split
  · exact HostReg.value_lt inv ‹_›
  · exact Nat.mod_lt _ (Nat.two_pow_pos _)

end Sys2Proof.Machine
end

section
/-! The whole-machine claims (40_header.md section 2, 46_decode_loop.md): CHANNELS and COLORSPACE do not interfere, the peek
policy cannot change a success, every call ends, and every well-formed stream decodes to its pixels. -/

namespace Sys2Proof.Machine

open Sys2Proof.Safety Sys2Proof.Laws

/-! ## CHANNELS and COLORSPACE (D9, C5) -/

/-- The state with other values in the two registers. -/
def State.withFormat (c cs : Byte) (s : State) : State := { s with channels := c, colorspace := cs }

/-- A fetch's answer with its state, where it has one, changed. -/
def Fetched.mapState (g : State → State) : Fetched → Fetched
  | .instr i => .instr i
  | .raised s d => .raised (g s) d

section
variable {c cs : Byte} {s : State}

theorem Outcome.andThen_andThen (o : Outcome) (f g : State → State) :
    Outcome.andThen (Outcome.andThen o f) g = Outcome.andThen o (fun t => g (f t)) := by
  cases o <;> rfl

theorem State.memWrite_withFormat (k n : Nat) (v : Pixel) :
    (s.withFormat c cs).memWrite k n v = Outcome.andThen (s.memWrite k n v) (State.withFormat c cs) := by
  by_cases h : s.pix = none ∨ s.total < k + n
  · rw [State.memWrite_of_outside h, State.memWrite_of_outside (s := s.withFormat c cs) h]
    rfl
  · obtain ⟨hpix, hroom⟩ := not_or.1 h
    obtain ⟨m, hm⟩ := Option.ne_none_iff_exists'.1 hpix
    have hroom' := Nat.not_lt.1 hroom
    rw [State.memWrite_of_room hm hroom', State.memWrite_of_room (s := s.withFormat c cs) hm hroom']
    rfl

theorem State.emit_withFormat (p : Pixel) :
    (s.withFormat c cs).emit p = Outcome.andThen (s.emit p) (State.withFormat c cs) := by
  by_cases h : s.emitOverflows = true
  · rw [State.emit, State.emit, if_pos h, if_pos (show (s.withFormat c cs).emitOverflows = true from h)]
    rfl
  · rw [State.emit, State.emit, if_neg h, if_neg (show ¬ (s.withFormat c cs).emitOverflows = true from h),
      State.memWrite_withFormat, Outcome.andThen_andThen, Outcome.andThen_andThen]
    rfl

theorem State.emitRun_withFormat (n : Nat) :
    (s.withFormat c cs).emitRun n = Outcome.andThen (s.emitRun n) (State.withFormat c cs) := by
  by_cases h : s.runOverflows n = true
  · rw [State.emitRun, State.emitRun, if_pos h, if_pos (show (s.withFormat c cs).runOverflows n = true from h)]
    rfl
  · rw [State.emitRun, State.emitRun, if_neg h, if_neg (show ¬ (s.withFormat c cs).runOverflows n = true from h),
      State.memWrite_withFormat, Outcome.andThen_andThen, Outcome.andThen_andThen]
    rfl

theorem exec_pixel_withFormat {i : Instr} {p : Pixel} (hf : s.fsm = .decodingOpcodes) (hp : s.pixelFor i = some p) :
    exec i (s.withFormat c cs) = Outcome.andThen (exec i s) (State.withFormat c cs) := by
  have hp' : (s.withFormat c cs).pixelFor i = some p := by
    rw [← hp]
    cases i <;> rfl
  rw [exec_pixel hp, exec_pixel hp', State.whenFsm_pos hf, State.whenFsm_pos (s := s.withFormat c cs) hf]
  exact State.emit_withFormat (s := s.advance i.length) p

theorem exec_header_of_loop (hf : s.fsm = .decodingOpcodes) (h : Header) : exec (.header h) s = .fault .notEnabled :=
  if_neg (by simp [hf])

/-- In the loop no instruction reads the two registers. -/
theorem exec_withFormat (hf : s.fsm = .decodingOpcodes) (i : Instr) :
    exec i (s.withFormat c cs) = Outcome.andThen (exec i s) (State.withFormat c cs) := by
  cases i with
  | rgb | rgba | index | diff | luma => exact exec_pixel_withFormat hf rfl
  | run count =>
    rw [exec_run hf, exec_run (s := s.withFormat c cs) hf]
    exact State.emitRun_withFormat (s := s.advance 1) count
  | header h =>
    rw [exec_header_of_loop hf, exec_header_of_loop (s := s.withFormat c cs) hf]
    rfl
  | endMarker =>
    by_cases hfull : s.cursor = s.total
    · rw [exec_endMarker_of_full hf hfull, exec_endMarker_of_full (s := s.withFormat c cs) hf hfull]
      rfl
    · rw [exec_endMarker_of_cursor_ne hf hfull, exec_endMarker_of_cursor_ne (s := s.withFormat c cs) hf hfull]
      exact exec_pixel_withFormat hf rfl

/-- The fetch reads the bytes at `pc`, CURSOR and TOTAL alone. -/
theorem LoopFetch.withFormat {f : Fetched} (h : LoopFetch s f) :
    LoopFetch (s.withFormat c cs) (f.mapState (State.withFormat c cs)) := by
  cases h with
  | markerMissing full read => exact .markerMissing full read
  | marker full read => exact .marker full read
  | opcodeMissing missing read => exact .opcodeMissing missing read
  | operandsMissing missing control read => exact .operandsMissing (s := s.withFormat c cs) missing control read
  | opcode row read noMarker => exact .opcode row read noMarker

theorem step_withFormat (hs : s.fsm ≠ .readingHeader) :
    step (s.withFormat c cs) = Outcome.andThen (step s) (State.withFormat c cs) := by
  cases hf : s.fsm with
  | readingHeader => exact absurd hf hs
  | allocatingGrid =>
    obtain hlarge | hfits := Nat.lt_or_ge s.maxPixels (s.width.toNat * s.height.toNat)
    · rw [step_of_large hf hlarge, step_of_large (s := s.withFormat c cs) hf hlarge]
      rfl
    · rw [step_of_fits hf hfits, step_of_fits (s := s.withFormat c cs) hf hfits]
      rfl
  | decodingOpcodes =>
    rw [step_of_loop hf, step_of_loop (s := s.withFormat c cs) hf, s.loopFetch.withFormat.fetchIteration_eq]
    cases s.fetchIteration with
    | instr i => exact exec_withFormat hf i
    | raised u d => rfl
  | done =>
    rw [step_of_done hf, step_of_done (s := s.withFormat c cs) hf]
    rfl
  | failed =>
    rw [step_of_failed hf, step_of_failed (s := s.withFormat c cs) hf]
    rfl

end

/-! ## Runs of the two machines -/

/-- A state whose step is a fault is where a run ends. -/
theorem eq_of_run_of_fault {M : Host.Core} {s t : M.State} {r : M.Fault} (hs : M.step s = .fault r) {k : Nat}
    (h : M.run k s = .next t) : t = s := by
  cases k with
  | zero => cases h; rfl
  | succ k =>
    obtain ⟨u, hu, _⟩ := run_succ_next h
    cases hs.symm.trans hu

section
variable {s t u : State} {k : Nat}

/-! The laws of a run, for the model's own `step`. -/

theorem core_run_succ (h : step s = .next t) : core.run (k + 1) s = core.run k t := run_succ (M := core) h

theorem core_run_one (h : step s = .next t) : core.run 1 s = .next t := core_run_succ h

theorem core_run_add {n : Nat} (h : core.run k s = .next t) : core.run (k + n) s = core.run n t := run_add h

/-- No run leads from `Failed` to `Done`. -/
theorem fsm_ne_done_of_run_of_failed (hs : s.fsm = .failed) (h : core.run k s = .next t) : t.fsm ≠ .done := by
  have ht : t = s := eq_of_run_of_fault (M := core) (step_of_failed hs) h
  simp [ht, hs]

/-! ## What an iteration does -/

theorem exec_pixel_total {i : Instr} {p : Pixel} {m : Memory Pixel} (hp : s.pixelFor i = some p)
    (hf : s.fsm = .decodingOpcodes) (hpix : s.pix = some m) : ∃ t, exec i s = .next t := by
  obtain hroom | hfull := Nat.lt_or_ge s.cursor s.total
  · exact ⟨_, exec_pixel_of_room hp hf hroom hpix⟩
  · exact ⟨_, exec_pixel_of_full hp hf hfull⟩

/-- In the loop with the grid created, every opcode has a next state. -/
theorem exec_opcode_total {i : Instr} {m : Memory Pixel} (hop : i.isOpcode = true) (hf : s.fsm = .decodingOpcodes)
    (hpix : s.pix = some m) : ∃ t, exec i s = .next t := by
  cases i with
  | rgb | rgba | index | diff | luma => exact exec_pixel_total rfl hf hpix
  | run count =>
    obtain hroom | hover := Nat.lt_or_ge s.total (s.cursor + count)
    · exact ⟨_, exec_run_of_overflow hf hroom⟩
    · exact ⟨_, exec_run_of_room hf hover hpix⟩
  | header | endMarker => cases hop

/-- An iteration that goes on: an opcode stood whole at `pc` and completed. -/
structure Advances (s t : State) : Prop where
  same : SameButPixels s t
  pix : t.pix ≠ none
  cursor_lt : s.cursor < t.cursor
  cursor_le : t.cursor ≤ t.total
  bytes : ∃ n bs, 1 ≤ n ∧ s.memRead s.pc n = some bs ∧ t.pc = s.pc + n

theorem OpcodeCompleted.pix_ne_none {i : Instr} (h : OpcodeCompleted i s t) : t.pix ≠ none := by
  cases h with
  | pixel _ _ _ _ _ _ eq | run _ _ _ _ _ _ eq => simp [eq]

theorem OpcodeCompleted.cursor_le {i : Instr} (h : OpcodeCompleted i s t) : t.cursor ≤ t.total := by
  cases h with
  | pixel _ _ _ _ room _ eq | run _ _ _ _ room _ eq => rw [eq]; exact room

theorem advances_of_opcodeRow {c : Byte} {os : List Byte} {i : Instr} (row : OpcodeRow c os i [])
    (hread : s.memRead s.pc i.length = some (c :: os)) (h : exec i s = .next t) (ht : t.fsm ≠ .failed) :
    Advances s t := by
  have hdone := (exec_effect h).opcodeCompleted row.isOpcode_eq ht
  have hpos := pixelCount_pos row.isOpcode_eq row.wf_eq
  have hcursor := (exec_effect h).cursor_of_completed row.isOpcode_eq ht
  have hlen := row.length_eq
  refine ⟨hdone.sameButPixels, hdone.pix_ne_none, by omega, hdone.cursor_le, i.length, c :: os, by simp at hlen; omega,
    hread, (exec_effect h).pc_eq ?_⟩
  rintro rfl
  cases row.isOpcode_eq

/-- An iteration ends the call, with the marker at `pc` where it ends in `Done`, or goes on. -/
theorem loop_step_cases (hf : s.fsm = .decodingOpcodes) (h : step s = .next t) :
    t.fsm = .failed ∨ (t.fsm = .done ∧ s.memRead s.pc 8 = some Config.endMarker) ∨ Advances s t := by
  have hfetch := s.loopFetch
  rw [step_of_loop hf] at h
  generalize s.fetchIteration = f at hfetch h
  cases hfetch with
  | markerMissing | opcodeMissing | operandsMissing => cases h; exact .inl rfl
  | marker full read =>
    rw [Fetched.run, exec_endMarker_of_full hf full] at h
    cases h
    exact .inr (.inl ⟨rfl, read⟩)
  | opcode row read =>
    by_cases ht : t.fsm = .failed
    · exact .inl ht
    · exact .inr (.inr (advances_of_opcodeRow row read h ht))

theorem loop_step_total (hf : s.fsm = .decodingOpcodes) (hpix : s.pix ≠ none) : ∃ t, step s = .next t := by
  have hfetch := s.loopFetch
  obtain ⟨m, hm⟩ := Option.ne_none_iff_exists'.1 hpix
  rw [step_of_loop hf]
  generalize s.fetchIteration = f at hfetch
  cases hfetch with
  | markerMissing | opcodeMissing | operandsMissing => exact ⟨_, rfl⟩
  | marker full => exact ⟨_, exec_endMarker_of_full hf full⟩
  | opcode row => exact exec_opcode_total row.isOpcode_eq hf hm

/-! ## The peek policy (R206) -/

/-- Where a run from the loop reaches `Done`, the eight bytes at `pc` are there: the opcodes read up to the marker and the
marker itself leave no gap. -/
theorem peek_ne_none_of_run_done (hf : s.fsm = .decodingOpcodes) (h : core.run k s = .next t) (ht : t.fsm = .done) :
    s.peek 8 ≠ none := by
  induction k generalizing s with
  | zero => cases h; cases hf.symm.trans ht
  | succ k ih =>
    obtain ⟨u, hu, hr⟩ := run_succ_next h
    obtain hfail | ⟨_, hmarker⟩ | hadv := loop_step_cases hf hu
    · exact absurd ht (fsm_ne_done_of_run_of_failed hfail hr)
    · exact Option.ne_none_iff_exists'.2 ⟨_, hmarker⟩
    · obtain ⟨n, bs, _, hread, hpc⟩ := hadv.bytes
      obtain ⟨ws, hws⟩ := Option.ne_none_iff_exists'.1 (ih (hadv.same.fsm_eq.trans hf) hr)
      have hws' : Memory.readRange s.input (s.pc + n) 8 = some ws := by rw [← hpc, ← hadv.same.input_eq]; exact hws
      have hall := Memory.readRange_append hread hws'
      rw [Nat.add_comm] at hall
      exact Option.ne_none_iff_exists'.2 ⟨_, (Memory.readRange_split hall).1⟩

theorem stepPeekAlways_of_peek (h : s.fsm = .decodingOpcodes → s.peek 8 ≠ none) : stepPeekAlways s = step s :=
  if_neg fun hn => h hn.1 hn.2

theorem run_peekAlways_of_run (h : core.run k s = .next t) (ht : t.fsm = .done) : corePeekAlways.run k s = .next t := by
  induction k generalizing s with
  | zero => exact h
  | succ k ih =>
    obtain ⟨u, hu, hr⟩ := run_succ_next h
    have hstep : stepPeekAlways s = .next u :=
      (stepPeekAlways_of_peek fun hf => peek_ne_none_of_run_done hf h ht).trans hu
    exact (run_succ (M := corePeekAlways) hstep).trans (ih hr)

theorem run_of_run_peekAlways (h : corePeekAlways.run k s = .next t) (ht : t.fsm = .done) : core.run k s = .next t := by
  induction k generalizing s with
  | zero => exact h
  | succ k ih =>
    obtain ⟨u, hu, hr⟩ := run_succ_next h
    by_cases hn : s.fsm = .decodingOpcodes ∧ s.peek 8 = none
    · have hraise : u = s.raise .truncEndmark := by
        have := (if_pos hn).symm.trans hu
        cases this; rfl
      have hstop : stepPeekAlways u = .fault .callFailed := by
        rw [hraise]
        exact (stepPeekAlways_of_peek fun hf => by cases hf).trans (step_of_failed rfl)
      have hu' : t = u := eq_of_run_of_fault (M := corePeekAlways) hstop hr
      rw [hu', hraise] at ht
      cases ht
    · have hstep : step s = .next u := (stepPeekAlways_of_peek fun hf hp => hn ⟨hf, hp⟩).symm.trans hu
      exact (core_run_succ hstep).trans (ih hr)

/-! ## Termination (R209) -/

/-- Each iteration that goes on takes a missing pixel and a byte that is left. -/
theorem Advances.measure_lt (h : Advances s t) (hin : Memory.contiguous s.input) :
    min (t.total - t.cursor) (t.len - t.pc) < min (s.total - s.cursor) (s.len - s.pc) := by
  obtain ⟨n, bs, hn, hread, hpc⟩ := h.bytes
  have hle := Memory.le_length_of_readRange hin hn hread
  have hlt := h.cursor_lt
  have hroom := h.cursor_le
  have hlen : t.len = s.len := congrArg List.length h.same.input_eq
  have hdef : s.len = s.input.length := rfl
  rw [h.same.total_eq] at hroom ⊢
  omega

theorem StepEffect.total_eq_of_loop (h : StepEffect s t) (hf : s.fsm = .decodingOpcodes) : t.total = s.total :=
  h.total_eq (by simp [hf])

theorem loop_ends (hf : s.fsm = .decodingOpcodes) (hpix : s.pix ≠ none) (hin : Memory.contiguous s.input) :
    ∃ (k : Nat) (t : State), k ≤ min (s.total - s.cursor) (s.len - s.pc) + 1 ∧ core.run k s = .next t ∧ terminal t ∧
      t.total = s.total := by
  induction hn : min (s.total - s.cursor) (s.len - s.pc) using Nat.strong_induction_on generalizing s with
  | _ n ih =>
    obtain ⟨u, hu⟩ := loop_step_total hf hpix
    have htotal := (step_effect hu).total_eq_of_loop hf
    obtain hfail | ⟨hdone, _⟩ | hadv := loop_step_cases hf hu
    · exact ⟨1, u, by omega, core_run_one hu, .inr hfail, htotal⟩
    · exact ⟨1, u, by omega, core_run_one hu, .inl hdone, htotal⟩
    · have hlt := hn ▸ hadv.measure_lt hin
      obtain ⟨k, t, hk, hrun, hend, ht⟩ :=
        ih _ hlt (hadv.same.fsm_eq.trans hf) hadv.pix (hadv.same.input_eq ▸ hin) rfl
      exact ⟨k + 1, t, by omega, (core_run_succ hu).trans hrun, hend, ht.trans htotal⟩

end

/-! ## The two steps before the loop (R120, R125) -/

/-- The state in which the loop of a call on `bytes` begins, past header `h`. -/
def loopStart (bytes : List Byte) (cap : Nat) (h : Header) : State :=
  { State.reset with
    pc := 14, fsm := .decodingOpcodes, width := h.width, height := h.height, channels := h.channels,
    colorspace := h.colorspace, total := h.width.toNat * h.height.toNat, pix := some [],
    input := Memory.ofList 0 bytes, maxPixels := cap }

/-- A loop that begins holds no pixels. -/
theorem holds_loopStart (bytes : List Byte) (cap : Nat) (h : Header) : Holds (loopStart bytes cap h) [] :=
  ⟨rfl, rfl, rfl, State.reset_slot⟩

section
variable {s : State} {bytes : List Byte} {cap : Nat} {h : Header}

/-- The state between the header step and the allocation step. -/
theorem step_hostReset (hread : (s.hostReset bytes cap).memRead 0 14 = some (encode (.header h)))
    (hv : headerFailure h = none) :
    step (s.hostReset bytes cap) =
      .next ((((s.hostReset bytes cap).advance 14).setHeader h).setFsm .allocatingGrid) :=
  (step_of_header rfl hread).trans (exec_header_of_valid rfl hv)

theorem run_two_hostReset (hread : (s.hostReset bytes cap).memRead 0 14 = some (encode (.header h)))
    (hv : headerFailure h = none) (hfits : h.width.toNat * h.height.toNat ≤ cap) :
    core.run 2 (s.hostReset bytes cap) = .next (loopStart bytes cap h) := by
  have halloc := step_of_fits (s := (((s.hostReset bytes cap).advance 14).setHeader h).setFsm .allocatingGrid) rfl hfits
  exact (core_run_succ (step_hostReset hread hv)).trans (core_run_one halloc)

theorem run_two_hostReset_of_large (hread : (s.hostReset bytes cap).memRead 0 14 = some (encode (.header h)))
    (hv : headerFailure h = none) (hlarge : cap < h.width.toNat * h.height.toNat) :
    ∃ t : State, core.run 2 (s.hostReset bytes cap) = .next t ∧ t.fsm = .failed := by
  have halloc := step_of_large (s := (((s.hostReset bytes cap).advance 14).setHeader h).setFsm .allocatingGrid) rfl hlarge
  exact ⟨_, (core_run_succ (step_hostReset hread hv)).trans (core_run_one halloc), rfl⟩

end

/-! ## A well-formed stream (R90, R210) -/

/-- The pixels held after a list of instructions, from the pixels `ps` on. -/
def pixelsFrom (ps : List Pixel) (is : List Instr) : List Pixel := is.foldl (fun ps i => ps ++ emitted ps i) ps

theorem pixelsFrom_nil (is : List Instr) : pixelsFrom [] is = pixelsOf is := rfl

theorem length_emitted (ps : List Pixel) (i : Instr) : (emitted ps i).length = pixelCount i := by
  cases i with
  | run count => exact List.length_replicate
  | rgb | rgba | index | diff | luma | header | endMarker => rfl

theorem length_le_length_pixelsFrom (ps : List Pixel) (is : List Instr) : ps.length ≤ (pixelsFrom ps is).length := by
  induction is generalizing ps with
  | nil => exact Nat.le_refl _
  | cons i is ih => exact Nat.le_trans (by simp) (ih (ps ++ emitted ps i))

section
variable {s : State}

/-- Where the parts of a well-formed input stand (R90). -/
theorem memRead_streamOf (h : Header) (is : List Instr) (trailing : List Byte) :
    Memory.readRange (Memory.ofList 0 (streamOf h is ++ trailing)) 0 14 = some (encode (.header h)) ∧
    Memory.readRange (Memory.ofList 0 (streamOf h is ++ trailing)) 14 (is.flatMap encode).length =
      some (is.flatMap encode) ∧
    Memory.readRange (Memory.ofList 0 (streamOf h is ++ trailing)) (14 + (is.flatMap encode).length) 8 =
      some Config.endMarker := by
  have hheader := Memory.readRange_ofList_slice [] (encode (.header h))
    (is.flatMap encode ++ encode .endMarker ++ trailing)
  have hops := Memory.readRange_ofList_slice (encode (.header h)) (is.flatMap encode) (encode .endMarker ++ trailing)
  have hmarker := Memory.readRange_ofList_slice (encode (.header h) ++ is.flatMap encode) (encode .endMarker) trailing
  simp only [List.nil_append, List.append_assoc, List.length_append] at hheader hops hmarker
  simp only [streamOf, List.append_assoc]
  exact ⟨hheader, hops, hmarker⟩

/-- An opcode whose pixels fit completes. -/
theorem exec_opcode_of_room {i : Instr} {m : Memory Pixel} (hop : i.isOpcode = true) (hf : s.fsm = .decodingOpcodes)
    (hroom : s.cursor + pixelCount i ≤ s.total) (hpix : s.pix = some m) :
    ∃ t, exec i s = .next t ∧ OpcodeCompleted i s t := by
  cases i with
  | rgb | rgba | index | diff | luma =>
    exact ⟨_, exec_pixel_of_room rfl hf hroom hpix, .pixel _ m hf rfl hroom hpix rfl⟩
  | run count => exact ⟨_, exec_run_of_room hf hroom hpix, .run count m hf rfl hroom hpix rfl⟩
  | header | endMarker => cases hop

/-- An opcode whose encoding stands at `pc` and whose pixels fit: one step appends its pixels. -/
theorem step_of_encode {i : Instr} {ps : List Pixel} (hop : i.isOpcode = true) (hwf : i.wf = true)
    (hf : s.fsm = .decodingOpcodes) (hholds : Holds s ps) (hroom : (ps ++ emitted ps i).length ≤ s.total)
    (hread : s.memRead s.pc (encode i).length = some (encode i)) :
    ∃ t, step s = .next t ∧ SameButPixels s t ∧ Holds t (ps ++ emitted ps i) ∧ t.pc = s.pc + (encode i).length := by
  obtain ⟨c, os, henc, hrow⟩ := opcodeRow_encode hop hwf
  have row : OpcodeRow c os i [] := by simpa using hrow []
  have hlen : (encode i).length = i.length := by rw [henc]; simpa using row.length_eq
  rw [List.length_append, length_emitted, ← hholds.cursor_eq] at hroom
  have hpos := pixelCount_pos hop hwf
  obtain ⟨t, hexec, hdone⟩ := exec_opcode_of_room hop hf hroom hholds.pix_eq
  rw [hlen] at hread ⊢
  refine ⟨t, (step_eq_exec_of_opcodeRow row hf (by omega) (henc ▸ hread)).trans hexec, hdone.sameButPixels,
    hholds.completed hdone, (exec_effect hexec).pc_eq ?_⟩
  rintro rfl
  cases hop

/-- The opcodes of a stream, run one after the other, append their pixels. -/
theorem run_opcodes (is : List Instr) {ps : List Pixel} (his : ∀ i ∈ is, i.isOpcode = true ∧ i.wf = true)
    (hf : s.fsm = .decodingOpcodes) (hholds : Holds s ps) (hroom : (pixelsFrom ps is).length ≤ s.total)
    (hread : s.memRead s.pc (is.flatMap encode).length = some (is.flatMap encode)) :
    ∃ (k : Nat) (t : State), core.run k s = .next t ∧ SameButPixels s t ∧ Holds t (pixelsFrom ps is) ∧
      t.pc = s.pc + (is.flatMap encode).length := by
  induction is generalizing s ps with
  | nil => exact ⟨0, s, rfl, .refl s, hholds, rfl⟩
  | cons i is ih =>
    obtain ⟨⟨hop, hwf⟩, his⟩ := List.forall_mem_cons.1 his
    rw [List.flatMap_cons] at hread
    obtain ⟨hi, hrest⟩ := Memory.readRange_of_append hread
    have hroom' := Nat.le_trans (length_le_length_pixelsFrom (ps ++ emitted ps i) is) hroom
    obtain ⟨u, hstep, hsame, hu, hpc⟩ := step_of_encode hop hwf hf hholds hroom' hi
    have hrest' : u.memRead u.pc (is.flatMap encode).length = some (is.flatMap encode) := by
      rw [State.memRead, hsame.input_eq, hpc]
      exact hrest
    obtain ⟨k, t, hrun, hsame', ht, hpc'⟩ :=
      ih his (hsame.fsm_eq.trans hf) hu (hsame.total_eq.symm ▸ hroom) hrest'
    refine ⟨k + 1, t, (core_run_succ hstep).trans hrun, hsame.trans hsame', ht, ?_⟩
    rw [hpc', hpc, List.flatMap_cons, List.length_append, Nat.add_assoc]

end

/-! ## The obligations -/

/-- Settles O48: every operation past the header commutes with a change of the two registers. -/
theorem channelsAndColorspaceDoNotInterfere : Obligations.ChannelsAndColorspaceDoNotInterfere := by
  intro s c cs hs
  exact step_withFormat hs

/-- Settles O51: the two machines take the same steps on the way to `Done`. -/
theorem peekPolicyCannotChangeASuccess : Obligations.PeekPolicyCannotChangeASuccess := fun _ _ ht =>
  ⟨fun ⟨k, h⟩ => ⟨k, run_peekAlways_of_run h ht⟩, fun ⟨k, h⟩ => ⟨k, run_of_run_peekAlways h ht⟩⟩

/-- Settles O52: `loop_ends`. -/
theorem decodeLoopEnds : Obligations.DecodeLoopEnds := by
  intro s hf hpix _ hin
  obtain ⟨k, t, hk, hrun, hend, _⟩ := loop_ends hf hpix hin
  exact ⟨k, t, hk, hrun, hend⟩

/-- Settles O53: the header step and the allocation step each fail or go on, and then the loop ends. -/
theorem everyDecodeCallEnds : Obligations.EveryDecodeCallEnds := by
  intro s bytes cap
  obtain ⟨hread, _⟩ | ⟨h, hread, _⟩ := (s.hostReset bytes cap).fetchHeader_cases
  · exact ⟨1, _, by omega, core_run_one (step_of_header_missing rfl hread), .inr rfl⟩
  cases hv : headerFailure h with
  | some d =>
    have hstep := (step_of_header rfl hread).trans (exec_header_of_invalid rfl hv)
    exact ⟨1, _, by omega, core_run_one hstep, .inr rfl⟩
  | none =>
    obtain hlarge | hfits := Nat.lt_or_ge cap (h.width.toNat * h.height.toNat)
    · obtain ⟨t, hrun, hfail⟩ := run_two_hostReset_of_large hread hv hlarge
      exact ⟨2, t, by omega, hrun, .inr hfail⟩
    · obtain ⟨k, t, hk, hrun, hend, htotal⟩ :=
        loop_ends (s := loopStart bytes cap h) rfl (by simp [loopStart]) (Memory.contiguous_ofList bytes)
      have hlen : (loopStart bytes cap h).len = bytes.length := Memory.length_ofList 0 bytes
      rw [hlen, ← htotal] at hk
      exact ⟨2 + k, t, by omega, (core_run_add (run_two_hostReset hread hv hfits)).trans hrun, hend⟩

/-- Settles O50: the header and allocation steps, the opcodes by induction on their list, and END. -/
theorem wellFormedStreamDecodesToItsPixels : Obligations.WellFormedStreamDecodesToItsPixels := by
  intro h is trailing cap s hvalid his hlen hcap
  obtain ⟨hheader, hops, hmarker⟩ := memRead_streamOf h is trailing
  have hstart := run_two_hostReset (s := s) (bytes := streamOf h is ++ trailing) (cap := cap) hheader
    (header_isValid_iff.1 hvalid) (hlen ▸ hcap)
  obtain ⟨k, u, hrun, hsame, hholds, hpc⟩ :=
    run_opcodes (s := loopStart (streamOf h is ++ trailing) cap h) is his rfl (holds_loopStart _ _ _) hlen.le hops
  rw [pixelsFrom_nil] at hholds
  have hfull : u.cursor = u.total := by rw [hholds.cursor_eq, hsame.total_eq]; exact hlen
  have hread : u.memRead u.pc 8 = some Config.endMarker := by rw [State.memRead, hsame.input_eq, hpc]; exact hmarker
  have hend := step_of_marker (hsame.fsm_eq.trans rfl) hfull hread
  refine ⟨2 + (k + 1), u.setFsm .done, ?_, rfl, hsame.status_eq, ?_⟩
  · exact (core_run_add hstart).trans ((core_run_add hrun).trans (core_run_one hend))
  · rw [State.image_of_holds rfl (hholds.setFsm .done) hfull, State.setFsm_width, State.setFsm_height,
      State.setFsm_channels, State.setFsm_colorspace, hsame.width_eq, hsame.height_eq, hsame.channels_eq,
      hsame.colorspace_eq]
    rfl

end Sys2Proof.Machine
end
